-- ==== Sys2Proof/Word.lean ====
section
/-! DEFINITION. The word type of the block and the 16-byte array made of it (R8, R10 to R14). -/

namespace Sys2Proof

/-- One byte, an unsigned integer 0..255; every datum of the algorithm is one (R5 `BYTE`, R8). -/
abbrev Byte := BitVec 8

/-- An array of exactly sixteen bytes, element 0 first (R5 `BLOCK`, R14, R70): the type of `state`,
`checksum`, `buffer`, `dout` and of a compression step's input. A block of any other length cannot be
written down (R122). -/
abbrev Block := Vector Byte 16

/-- Sixteen zero bytes, the source's `[0; 16]` (R8, R25). -/
def zeroBlock : Block := Vector.replicate 16 0

end Sys2Proof
end

