-- ==== Sys2Proof/Config.lean ====
section
/-! DEFINITION. The constants of the block (R5). None is left open by an implementation, so there is no free
value here; the one table that the spec lets a model take as a parameter, `S`, stands in
Machine/Sbox.lean (R31, D28). -/

namespace Sys2Proof.Config

/-- `ROUNDS`: rounds of the compression transform, indexed `j` = 0..17 (R5). -/
def rounds : Nat := 18

/-- `LEN_BITS`: width of the payload length field of a header (R5, R51, D5). -/
abbrev lenBits : Nat := 12

/-- The longest payload of one `UPDATE`, 4095 bytes (R5 `LEN_BITS`, R56). -/
abbrev maxPayload : Nat := 2 ^ lenBits - 1

/-- `DIGEST_HEX_CHARS`: characters of the hex rendering of a digest (R5, R111). -/
def digestHexChars : Nat := 32

end Sys2Proof.Config
end

