-- ==== Sys2Proof/Syntax.lean ====
section
/-! DEFINITION. The commands of the block, one constructor per row of spec/opcode_table.json (R54). -/

namespace Sys2Proof

/-- A command of the stream, decoded. Every operand but the payload of `UPDATE` is implicit (R56). The
pseudo-commands of R62 are no constructors: they expand to these four (Machine/Assembler.lean). -/
inductive Instr where
  /-- `INIT`, header `10 00`: create a fresh instance (R90). -/
  | init
  /-- `UPDATE`, header `2L LL`, then the payload bytes: absorb them (R91). -/
  | update (payload : List Byte)
  /-- `FINAL`, header `30 00`: finish the hash and consume the instance (R105). -/
  | final
  /-- `PEEK`, header `40 00`: deliver the digest so far, the instance untouched (R109). -/
  | peek
  deriving DecidableEq, Repr

end Sys2Proof
end

