-- ==== Sys2Proof/WellFormed.lean ====
section
/-! DEFINITION. Which commands have an encoding (R52, R56). -/

namespace Sys2Proof

/-- The one bound an encoding puts on a command: the payload of an `UPDATE` has at most 4095 bytes, so that its
length fits the 12-bit `len` field (R54, R56). -/
def Instr.wf : Instr → Bool
  | .init => true
  | .update payload => payload.length ≤ Config.maxPayload
  | .final => true
  | .peek => true

end Sys2Proof
end

