-- ==== Sys2Proof/Decode.lean ====
section
/-! DEFINITION. The decoder of the command stream, total on any bytes, and the encoder (R50 to R56). -/

namespace Sys2Proof

/-- What the two header bytes of a legal command say (R53, R54). -/
inductive Header where
  | init
  | update (len : BitVec 12)
  | final
  | peek
  deriving DecidableEq, Repr

/-- The outcome of reading one command off the bytes that have arrived. -/
inductive Decoded where
  /-- A whole command, and the bytes behind it. -/
  | command (i : Instr) (rest : List Byte)
  /-- Two header bytes that match no row of the opcode map (R55). -/
  | illegal (hdr : BitVec 16)
  /-- Fewer than two bytes have arrived (R58). -/
  | needHeader
  /-- The header of an `UPDATE` of `len` bytes has arrived and not all of its payload (R58). -/
  | needPayload (len : Nat)
  deriving DecidableEq, Repr

/-- Format H: the byte at `cpos` is `hdr[15:8]`, the next one `hdr[7:0]` (R51). -/
def headerWord (b0 b1 : Byte) : BitVec 16 := b0 ++ b1

/-- The two stream bytes of a header, most significant byte first (R51). -/
def headerBytes (hdr : BitVec 16) : List Byte := [hdr.extractLsb' 8 8, hdr.extractLsb' 0 8]

/-- The opcode field, bits 15:12 of the header (R51). -/
def headerOp (hdr : BitVec 16) : BitVec 4 := hdr.extractLsb' 12 4

/-- The length field, bits 11:0 of the header: unsigned, not scaled (R51, R56). -/
def headerLen (hdr : BitVec 16) : BitVec 12 := hdr.extractLsb' 0 12

/-- The opcode map: a header selects the row whose `hdr & mask == match`, and a header that selects none is
illegal (R54, R55). The same map holds in every phase (R57). -/
def decodeHeader (hdr : BitVec 16) : Option Header :=
  if hdr &&& 0xffff = 0x1000 then some .init
  else if hdr &&& 0xf000 = 0x2000 then some (.update (headerLen hdr))
  else if hdr &&& 0xffff = 0x3000 then some .final
  else if hdr &&& 0xffff = 0x4000 then some .peek
  else none

/-- A legal header with the bytes behind it: only an `UPDATE` takes a payload, exactly `len` bytes (R52, R53). -/
def decodeBody (h : Header) (rest : List Byte) : Decoded :=
  match h with
  | .init => .command .init rest
  | .update len =>
    if len.toNat ≤ rest.length then .command (.update (rest.take len.toNat)) (rest.drop len.toNat)
    else .needPayload len.toNat
  | .final => .command .final rest
  | .peek => .command .peek rest

/-- The decoder: reads two bytes, classifies them, and for an `UPDATE` takes `len` payload bytes (R53). -/
def decode : List Byte → Decoded
  | b0 :: b1 :: rest =>
    match decodeHeader (headerWord b0 b1) with
    | some h => decodeBody h rest
    | none => .illegal (headerWord b0 b1)
  | _ => .needHeader

/-- The header of a command (R54): `0x2000 | n` for an `UPDATE` of `n` bytes (R91). -/
def encodeHeader : Instr → BitVec 16
  | .init => 0x1000
  | .update payload => 0x2000 ||| BitVec.ofNat 16 payload.length
  | .final => 0x3000
  | .peek => 0x4000

/-- The payload bytes that follow the header (R52). -/
def encodePayload : Instr → List Byte
  | .init => []
  | .update payload => payload
  | .final => []
  | .peek => []

/-- The stream bytes of a command (R50 to R54). Meant for well-formed commands: a longer payload has no
encoding. -/
def encode (i : Instr) : List Byte := headerBytes (encodeHeader i) ++ encodePayload i

/-- The length of a command in stream bytes: 2 for `INIT`, `FINAL`, `PEEK`, `2 + len` for `UPDATE` (R53). -/
def commandLength (i : Instr) : Nat := 2 + (encodePayload i).length

/-- How many payload bytes the header of a table row asks for. -/
def headerPayload (hdr : BitVec 16) : Nat :=
  match decodeHeader hdr with
  | some (.update len) => len.toNat
  | _ => 0

/-- The stream bytes of the command whose bits, numbered as spec/opcode_table.json numbers them, are the low
`nbits` bits of `w`: the header word first, most significant byte first, then as many payload bytes as it asks
for, payload byte `i` in bits `16 + 8 i` and up (all zero for the table's 16-bit rows). -/
def tableBytes (nbits w : Nat) : List Byte :=
  let v := w % 2 ^ nbits
  let hdr := BitVec.ofNat 16 v
  headerBytes hdr ++ (List.range (headerPayload hdr)).map fun i => BitVec.ofNat 8 (v >>> (16 + 8 * i))

/-- What the decoder reads from the bits `w` of a table row. -/
def decodeTableWord (nbits w : Nat) : Option Instr :=
  match decode (tableBytes nbits w) with
  | .command i _ => some i
  | _ => none

end Sys2Proof
end

