-- ==== Sys2Proof/Machine/Compression.lean ====
section
/-! DEFINITION. The internal operations of a compression step as pure functions: LOADX, ROUND, MIX, CKS (R70 to
R79). They have no encoding and no constructor of `Instr` (R59). A block is passed by value, which is the latch of R70:
no operation reads the register its block came from. -/

namespace Sys2Proof.Machine

/-- The working values of MIX: the scratch array `x` and the running index `t` (R20). -/
structure Scratch where
  x : Vector Byte 48
  t : Byte
  deriving DecidableEq, Repr

/-- LOADX: `x[i] = state[i]`, `x[16 + i] = input[i]`, `x[32 + i] = state[i] ^ input[i]` (R35, R71). -/
def loadX (state input : Block) : Vector Byte 48 :=
  state ++ input ++ Vector.zipWith (· ^^^ ·) state input

/-- The inner loop of ROUND over the bytes of `x` in order: first substitute into `x[k]` with the current `t`, then
take the NEW `x[k]` as the next `t` (R72, R143). -/
def substitute : List Byte → Byte → List Byte × Byte
  | [], t => ([], t)
  | b :: bs, t =>
    let y := b ^^^ S t
    let r := substitute bs y
    (y :: r.1, r.2)

theorem length_substitute (bs : List Byte) (t : Byte) : (substitute bs t).1.length = bs.length := by
  induction bs generalizing t with
  | nil => rfl
  | cons b bs ih => simp [substitute, ih]

/-- ROUND `j`: the inner loop, then `t <- (t + j) mod 256` (R72, R145). -/
def mixRound (j : Nat) (w : Scratch) : Scratch :=
  let r := substitute w.x.toList w.t
  { x := ⟨r.1.toArray, by simp [r, length_substitute]⟩
    t := r.2 + BitVec.ofNat 8 j }

/-- The rounds 0, 1, ..., `n - 1` in that order. -/
def mixRounds (n : Nat) (w : Scratch) : Scratch := (List.range n).foldl (fun w j => mixRound j w) w

/-- MIX: 18 rounds over the loaded scratch array with `t` started at 0; `x[0..16]` is the new `state` and the
rest is dropped (R73, R76). -/
@[irreducible] def mix (state input : Block) : Block :=
  let w := mixRounds Config.rounds { x := loadX state input, t := 0 }
  Vector.ofFn fun i : Fin 16 => w.x[i.val]

/-- The loop of CKS over the pairs `(checksum[j], input[j])` in order: `checksum[j] <- checksum[j] ^ S[input[j] ^ l]`,
then `l` is the NEW `checksum[j]` (R74, R79). -/
def checksumChain : List (Byte × Byte) → Byte → List Byte
  | [], _ => []
  | (c, b) :: ps, l =>
    let y := c ^^^ S (b ^^^ l)
    y :: checksumChain ps y

theorem length_checksumChain (ps : List (Byte × Byte)) (l : Byte) : (checksumChain ps l).length = ps.length := by
  induction ps generalizing l with
  | nil => rfl
  | cons p ps ih => simp [checksumChain, ih]

/-- CKS: the checksum update, its chain byte `l` started at the old `checksum[15]` (R74, R146). -/
@[irreducible] def cks (checksum input : Block) : Block :=
  ⟨(checksumChain (checksum.toList.zip input.toList) checksum[15]).toArray, by simp [length_checksumChain]⟩

end Sys2Proof.Machine
end

