-- ==== Sys2Proof/Machine/Operands.lean ====
section
/-! DEFINITION. How bytes enter the 16-byte arrays: the payload of `UPDATE` is the one operand form of the block
(R36, R52, R56, R91). -/

namespace Sys2Proof.Machine

/-- Writes bytes in order from position `k` on: `buffer[k + i] <- bytes[i]` (R34, R91 steps 2 and 6, R105 step 2).
A byte past element 15 would be dropped; no command passes one (R98). -/
def writeBytes (buffer : Block) (k : Nat) : List Byte → Block
  | [] => buffer
  | b :: bs => writeBytes (buffer.setIfInBounds k b) (k + 1) bs

/-- Cuts bytes into consecutive 16-byte blocks until fewer than 16 remain, and answers the blocks in order and
the remainder (R91 step 5: `bytes[off .. off + 16]` while `n - off >= 16`). Every block it answers has sixteen
bytes by its type (R122). -/
def splitBlocks : List Byte → List Block × List Byte
  | b0 :: b1 :: b2 :: b3 :: b4 :: b5 :: b6 :: b7 :: b8 :: b9 :: b10 :: b11 :: b12 :: b13 :: b14 :: b15 :: rest =>
    let r := splitBlocks rest
    (#v[b0, b1, b2, b3, b4, b5, b6, b7, b8, b9, b10, b11, b12, b13, b14, b15] :: r.1, r.2)
  | short => ([], short)

/-- How many of `n` bytes fit the rest of the buffer: `min(n, 16 - count)` (R91 step 1). -/
def available (n : Nat) (count : BitVec 4) : Nat := min n (16 - count.toNat)

/-- `padding_len`, 1..16, never 0 (R105 step 1, R106). -/
def paddingLength (count : BitVec 4) : Nat := 16 - count.toNat

/-- The padded block: every byte of `buffer[count..16]` is the padding length itself (R105 step 2, R106). -/
def padded (buffer : Block) (count : BitVec 4) : Block :=
  writeBytes buffer count.toNat (List.replicate (paddingLength count) (BitVec.ofNat 8 (paddingLength count)))

end Sys2Proof.Machine
end

