-- ==== Sys2Proof/Machine/State.lean ====
section
/-! DEFINITION. The state of the engine and of its host side, as plain data (R10 to R26), and the reasons a step
does not answer a next state. -/

namespace Sys2Proof.Machine

/-- `phase`, the values of R16. The register's fourth value, 3, is never produced and has no constructor (U12). -/
inductive Phase where
  /-- 0, `ACTIVE`: an instance is live. -/
  | active
  /-- 1, `DONE`: the instance was consumed by `FINAL`. -/
  | done
  /-- 2, `FAULT`: a fault was taken; only reset leaves this phase. -/
  | fault
  deriving DecidableEq, Repr

/-- `cause`, the values of R17 and R121. The codes 3..15 are never produced and have no constructor (U12). -/
inductive Cause where
  /-- 0: no fault taken. -/
  | none
  /-- 1: the decoded header matches no row of the opcode map. -/
  | illegalCommand
  /-- 2: a legal `UPDATE`, `FINAL` or `PEEK` decoded in `DONE`. -/
  | useAfterFinal
  deriving DecidableEq, Repr

/-- What the host does to the engine, in order: it delivers a stream byte (R50), or it asserts the reset input
`rst` (R140). -/
inductive HostEvent where
  | byte (b : Byte)
  | rst
  deriving DecidableEq, Repr

/-- The machine. The first eight fields are the registers of the block; `cpos` and `input` are the host's
side of the stream (R21, R50). The table `S` is a constant, not state (R15); the working values `x`, `t`, `l`, `j`,
`k`, `blk` and the copies of `PEEK` do not survive a command and are local to it (R20); `STATUS` and `DOUT` are
computed from these fields (R19, R42; Machine/Flags.lean). -/
structure State where
  /-- The hashing state, 16 bytes (R10). -/
  state : Block
  /-- The running checksum, 16 bytes (R11). -/
  checksum : Block
  /-- Input bytes not yet forming a complete block, 16 bytes; those from `count` on are stale (R12). -/
  buffer : Block
  /-- Number of valid bytes in `buffer`, 4 bits (R13). -/
  count : BitVec 4
  /-- The phase, 2 bits (R16). -/
  phase : Phase
  /-- The code of the fault taken, 4 bits (R17). -/
  cause : Cause
  /-- The digest output register, 16 bytes (R18). -/
  dout : Block
  /-- `dout` holds a digest (R18). -/
  dvalid : Bool
  /-- The command-stream position: the index in the host's stream of the next header byte (R21). -/
  cpos : Nat
  /-- What the host has presented and the engine has not taken, oldest first (R50, R58, R140): the byte at `cpos`
  stands at its head. -/
  input : List HostEvent
  deriving DecidableEq, Repr

/-- Why a step stops the machine. It has no constructor: the block's two faults (R121) do not stop it, they are
the entry into the `FAULT` phase (R124), which is a next state. -/
inductive Fault where
  deriving DecidableEq, Repr

/-- Why there is no next state. -/
inductive Refusal where
  /-- An arm of `exec` whose command has no meaning yet; raised by no arm of this model. Safe. -/
  | notModelled (mnemonic : String)
  /-- Raised by `step` alone, when `input` holds neither a reset nor enough bytes for the engine to act on: in
  `ACTIVE` and `DONE` no whole command (R58), in `FAULT` nothing to discard (R125). The spec gives such a stream no
  step; nothing has changed, and the machine goes on once the host presents more (`State.present`). Safe. -/
  | awaitingHost
  deriving DecidableEq, Repr

/-- The machine right after reset: a fresh instance, `ACTIVE`, no fault, no digest (R25), and nothing presented
by the host yet. -/
def State.reset : State where
  state := zeroBlock
  checksum := zeroBlock
  buffer := zeroBlock
  count := 0
  phase := .active
  cause := .none
  dout := zeroBlock
  dvalid := false
  cpos := 0
  input := []

end Sys2Proof.Machine
end

