-- ==== Sys2Proof/Machine/Ops.lean ====
section
/-! DEFINITION. The shared operations over the registers and the stream: COMPRESS, fault entry, reset, the advance
of the stream, admission, and reading the next command. -/

namespace Sys2Proof.Machine

/-- COMPRESS: MIX into `state` and CKS into `checksum`, both from one latched block and from the old registers
(R75). -/
def State.compress (s : State) (blk : Block) : State :=
  { s with state := mix s.state blk, checksum := cks s.checksum blk }

/-- COMPRESS on each block, in order. -/
def State.compressAll (s : State) (blocks : List Block) : State := blocks.foldl State.compress s

/-- Fault entry, `raise F` with its code: writes `cause` and `phase` and nothing else, and does not advance
`cpos` (R124). -/
def State.raise (s : State) (code : Cause) : State := { s with cause := code, phase := .fault }

/-- The reset event, which is also the only way out of `FAULT`: every register at its reset value and the stream
started anew with what the host presents after it (R25, R140). There is no other return from a fault
(R126). -/
def State.afterReset (rest : List HostEvent) : State := { State.reset with input := rest }

/-- A command of `n` stream bytes completes: `cpos <- cpos + n`, and its bytes are taken (R21, R43). -/
def State.consume (s : State) (n : Nat) : State := { s with cpos := s.cpos + n, input := s.input.drop n }

/-- `n` stream bytes are accepted and thrown away in `FAULT`; no register changes (R125). -/
def State.discard (s : State) (n : Nat) : State := { s with input := s.input.drop n }

/-- Admission of a decoded command of `n` bytes that needs a live instance: it runs in `ACTIVE`, raises
`UseAfterFinal` in `DONE`, and is thrown away in `FAULT` (R123). -/
def State.admitLive (s : State) (n : Nat) (run : State → State) : Host.Outcome State Fault Refusal :=
  match s.phase with
  | .active => .next ((run s).consume n)
  | .done => .next (s.raise .useAfterFinal)
  | .fault => .next (s.discard n)

/-- Admission of a decoded command of `n` bytes that starts an instance: it runs in `ACTIVE` and in `DONE` and is
thrown away in `FAULT` (R123 step 3, R90). -/
def State.admitFresh (s : State) (n : Nat) (run : State → State) : Host.Outcome State Fault Refusal :=
  match s.phase with
  | .active => .next ((run s).consume n)
  | .done => .next ((run s).consume n)
  | .fault => .next (s.discard n)

/-- The stream bytes the host has delivered ahead of its next reset: those the engine can decode. -/
def streamBytes : List HostEvent → List Byte
  | .byte b :: es => b :: streamBytes es
  | .rst :: _ => []
  | [] => []

/-- What stands behind the next reset, if the host has asserted one. -/
def behindReset : List HostEvent → Option (List HostEvent)
  | .byte _ :: es => behindReset es
  | .rst :: es => some es
  | [] => none

/-- Reads the next command (R53). -/
def State.fetch (s : State) : Decoded := decode (streamBytes s.input)

/-- No whole command has arrived: a reset abandons the part that has (R58, R140), and without one the engine waits,
which is no step (R58). -/
def State.await (s : State) : Host.Outcome State Fault Refusal :=
  match behindReset s.input with
  | some rest => .next (State.afterReset rest)
  | none => .refused .awaitingHost

/-- The header of an `UPDATE` has arrived and not all of its payload: in `ACTIVE` and in `DONE` the command has not been
presented, so it neither runs nor faults (R58). That R58 holds in `DONE` beside R91 and R123 is DEDUCED
(notes/assumptions/4.md). -/
def State.awaitPayload (s : State) : Host.Outcome State Fault Refusal := s.await

/-- One step in `FAULT`: the next stream byte is thrown away undecoded, or a reset is taken (R125, R140). -/
def State.stepInFault (s : State) : Host.Outcome State Fault Refusal :=
  match s.input with
  | .byte _ :: _ => .next (s.discard 1)
  | .rst :: rest => .next (State.afterReset rest)
  | [] => .refused .awaitingHost

/-- The host presents more events, behind those already presented. -/
def State.present (s : State) (events : List HostEvent) : State := { s with input := s.input ++ events }

end Sys2Proof.Machine
end

