-- ==== Sys2Proof/Machine/Buffering.lean ====
section
/-! DEFINITION. The buffering commands, `INIT` and `UPDATE` (R90 to R98). -/

namespace Sys2Proof.Machine

/-- The registers of a fresh instance (R90): all but `cause`. -/
def State.fresh (s : State) : State :=
  { s with
    state := zeroBlock
    checksum := zeroBlock
    buffer := zeroBlock
    dout := zeroBlock
    count := 0
    dvalid := false
    phase := .active }

/-- `INIT` (R90). -/
def execInit (s : State) : Host.Outcome State Fault Refusal := s.admitFresh 2 State.fresh

/-- Step 2 of `UPDATE`: the bytes that fit go behind those already in `buffer`. -/
def State.fill (s : State) (bytes : List Byte) : State :=
  { s with buffer := writeBytes s.buffer s.count.toNat (bytes.take (available bytes.length s.count)) }

/-- Step 6 of `UPDATE`: the last 0..15 bytes go to the front of `buffer`, and `count` is their number. -/
def State.store (s : State) (bytes : List Byte) : State :=
  { s with buffer := writeBytes s.buffer 0 bytes, count := BitVec.ofNat 4 bytes.length }

/-- The six steps of `UPDATE` (R91). `c1` is the 5-bit sum, 0..16; `count` is written with 0..15 only (R13, R148). -/
def State.absorb (s : State) (bytes : List Byte) : State :=
  let a := available bytes.length s.count
  let c1 := s.count.toNat + a
  let filled := s.fill bytes
  if c1 < 16 then { filled with count := BitVec.ofNat 4 c1 }
  else
    let cut := splitBlocks (bytes.drop a)
    ((filled.compress filled.buffer).compressAll cut.1).store cut.2

/-- `UPDATE` (R91). -/
def execUpdate (bytes : List Byte) (s : State) : Host.Outcome State Fault Refusal :=
  s.admitLive (2 + bytes.length) fun s => s.absorb bytes

end Sys2Proof.Machine
end

