-- ==== Sys2Proof/Machine/Finalisation.lean ====
section
/-! DEFINITION. The finalisation commands, `FINAL` and `PEEK` (R105 to R109). -/

namespace Sys2Proof.Machine

/-- Steps 1 to 4 of `FINAL`: pad, compress the padded buffer, then compress the checksum as that step left it
(R105, R107). -/
def State.finish (s : State) : State :=
  let s := { s with buffer := padded s.buffer s.count }
  let s := s.compress s.buffer
  s.compress s.checksum

/-- Step 5 of `FINAL`: the digest goes to `dout`, and the instance is consumed (R105, R108). -/
def State.deliver (s : State) : State := { s.finish with dout := s.finish.state, dvalid := true, phase := .done }

/-- `FINAL` (R105). -/
def execFinal (s : State) : Host.Outcome State Fault Refusal := s.admitLive 2 State.deliver

/-- Steps 1 to 4 of `FINAL` run on private copies; of their results only the digest is kept, in `dout` (R109). -/
def State.exhibit (s : State) : State := { s with dout := s.finish.state, dvalid := true }

/-- `PEEK` (R109). -/
def execPeek (s : State) : Host.Outcome State Fault Refusal := s.admitLive 2 State.exhibit

end Sys2Proof.Machine
end

