-- ==== Sys2Proof/Machine/Flags.lean ====
section
/-! DEFINITION. What the host reads between commands beside `dout` and `dvalid`: the status word and the digest
port (R19, R42). The block has no arithmetic condition codes (R22). -/

namespace Sys2Proof.Machine

/-- The 2-bit value of `phase` (R16). -/
def Phase.code : Phase → BitVec 2
  | .active => 0
  | .done => 1
  | .fault => 2

/-- The 4-bit value of `cause` (R17, R121). -/
def Cause.code : Cause → BitVec 4
  | .none => 0
  | .illegalCommand => 1
  | .useAfterFinal => 2

/-- `STATUS = (cause << 4) | (dvalid << 2) | phase`: bits 7:4 `cause`, bit 3 always 0, bit 2 `dvalid`, bits 1:0 `phase`
(R19). -/
def State.status (s : State) : BitVec 8 :=
  s.cause.code.setWidth 8 <<< 4 ||| (BitVec.ofBool s.dvalid).setWidth 8 <<< 2 ||| s.phase.code.setWidth 8

/-- The 128-bit number whose byte lanes are the given bytes, the first in the least significant lane. -/
def bytesToNat : List Byte → Nat
  | [] => 0
  | b :: bs => b.toNat + 256 * bytesToNat bs

/-- `DOUT`: `dout[i]` in bits `8 i + 7 : 8 i` (R42). -/
def State.doutPort (s : State) : BitVec 128 := BitVec.ofNat 128 (bytesToNat s.dout.toList)

end Sys2Proof.Machine
end

