-- ==== Sys2Proof/Machine/Step.lean ====
section
/-! DEFINITION. One step of the engine (R6, R123). -/

namespace Sys2Proof.Machine

/-- One step: in `FAULT` a byte is thrown away; otherwise the next command is decoded, an illegal header raises
`IllegalCommand`, and a whole command runs (R123). -/
def step (s : State) : Host.Outcome State Fault Refusal :=
  match s.phase with
  | .fault => s.stepInFault
  | .active | .done =>
    match s.fetch with
    | .command i _ => exec i s
    | .illegal _ => .next (s.raise .illegalCommand)
    | .needPayload _ => s.awaitPayload
    | .needHeader => s.await

/-- `s` with exactly one command presented by the host, given by its bits as spec/opcode_table.json numbers them
(`tableBytes`). Nothing else changes, so in `FAULT` the command is thrown away, as R125 says. -/
def State.withFetchWord (s : State) (nbits w : Nat) : State :=
  { s with input := (tableBytes nbits w).map .byte }

end Sys2Proof.Machine
end

