-- ==== Sys2Proof/Machine/Assembler.lean ====
section
/-! DEFINITION. The assembler syntax of the command stream and the expansions of the pseudo-commands (R61, R62,
R96). It is host-side text: the engine sees only the bytes. -/

namespace Sys2Proof.Machine

/-- A source line that names a command or a pseudo-command, its operand already read (R61, R62). -/
inductive SourceLine where
  | init
  | update (operand : List Byte)
  | final
  | peek
  | withInput (operand : List Byte)
  | updateStar (operand : List Byte)
  | nop
  | hex
  | digest (operand : List Byte)
  deriving DecidableEq, Repr

/-- `UPDATE*` with at most `k` splits: one `UPDATE` where the operand fits, else an `UPDATE` of the first 4095
bytes and the expansion of the rest (R62). -/
def splitUpdate : Nat → List Byte → List Instr
  | 0, m => [.update m]
  | k + 1, m =>
    if m.length ≤ Config.maxPayload then [.update m]
    else .update (m.take Config.maxPayload) :: splitUpdate k (m.drop Config.maxPayload)

/-- `UPDATE*` (R62). -/
def updateStar (m : List Byte) : List Instr := splitUpdate (m.length / Config.maxPayload) m

/-- The commands a source line stands for (R61, R62, R96). `HEX` is `PEEK` here; that the host then renders `dout` is
no command. -/
def expandLine : SourceLine → List Instr
  | .init => [.init]
  | .update m => updateStar m
  | .final => [.final]
  | .peek => [.peek]
  | .withInput m => .init :: updateStar m
  | .updateStar m => updateStar m
  | .nop => [.update []]
  | .hex => [.peek]
  | .digest m => .init :: updateStar m ++ [.final]

/-- Leaves out leading blanks, which are spaces and tabs (DESIGN CHOICE, notes/assumptions/13.md). -/
def skipBlanks : List Char → List Char
  | [] => []
  | c :: cs => if c = ' ' ∨ c = '\t' then skipBlanks cs else c :: cs

/-- Nothing but blanks and a `;` comment is left of the line (R61). -/
def atLineEnd (cs : List Char) : Bool :=
  match skipBlanks cs with
  | [] => true
  | c :: _ => c = ';'

/-- The first word of a line and what follows it. -/
def takeWord : List Char → List Char × List Char
  | [] => ([], [])
  | c :: cs =>
    if c = ' ' ∨ c = '\t' ∨ c = ';' then ([], c :: cs)
    else
      let r := takeWord cs
      (c :: r.1, r.2)

/-- The bytes of a quoted text up to its closing quote, each character's ASCII code, and what follows; only printable
ASCII `0x20`..`0x7e` may appear (R61, G3). -/
def quotedText : List Char → Option (List Byte × List Char)
  | [] => none
  | c :: cs =>
    if c = '"' then some ([], cs)
    else if 0x20 ≤ c.toNat ∧ c.toNat ≤ 0x7e then
      (quotedText cs).map fun r => (BitVec.ofNat 8 c.toNat :: r.1, r.2)
    else none

/-- The value of a hex digit, of either case (DESIGN CHOICE, notes/assumptions/13.md). -/
def hexValue (c : Char) : Option Nat :=
  if '0' ≤ c ∧ c ≤ '9' then some (c.toNat - 48)
  else if 'a' ≤ c ∧ c ≤ 'f' then some (c.toNat - 87)
  else if 'A' ≤ c ∧ c ≤ 'F' then some (c.toNat - 55)
  else none

/-- Hex pairs up to the end of the line or a comment; between two pairs stands a blank (R61). DESIGN CHOICE
(notes/assumptions/13.md): blanks may stand before the first pair, several between two, and some behind the last. -/
def hexPairs : List Char → Option (List Byte)
  | [] => some []
  | [c] => if c = ' ' ∨ c = '\t' ∨ c = ';' then some [] else none
  | c :: d :: cs =>
    if c = ';' then some []
    else if c = ' ' ∨ c = '\t' then hexPairs (d :: cs)
    else if (takeWord cs).1 = [] then
      (hexValue c).bind fun h => (hexValue d).bind fun l => (hexPairs cs).map fun r => BitVec.ofNat 8 (16 * h + l) :: r
    else none

/-- The operand of a source line: `"text"` or `xHH HH ... HH` (R61). -/
def readOperand (cs : List Char) : Option (List Byte) :=
  match skipBlanks cs with
  | [] => none
  | c :: cs =>
    if c = '"' then (quotedText cs).bind fun r => if atLineEnd r.2 then some r.1 else none
    else if c = 'x' then hexPairs cs
    else none

/-- A line without an operand: nothing but a comment may follow its mnemonic. -/
def bareLine (line : SourceLine) (cs : List Char) : Option SourceLine := if atLineEnd cs then some line else none

/-- A line that begins with a word: the mnemonics, in upper case (R61, R62). -/
def readCommand (word : List Char) (cs : List Char) : Option SourceLine :=
  if word = ['I', 'N', 'I', 'T'] then bareLine .init cs
  else if word = ['U', 'P', 'D', 'A', 'T', 'E'] then (readOperand cs).map .update
  else if word = ['F', 'I', 'N', 'A', 'L'] then bareLine .final cs
  else if word = ['P', 'E', 'E', 'K'] then bareLine .peek cs
  else if word = ['W', 'I', 'T', 'H', '_', 'I', 'N', 'P', 'U', 'T'] then (readOperand cs).map .withInput
  else if word = ['U', 'P', 'D', 'A', 'T', 'E', '*'] then (readOperand cs).map .updateStar
  else if word = ['N', 'O', 'P'] then bareLine .nop cs
  else if word = ['H', 'E', 'X'] then bareLine .hex cs
  else if word = ['D', 'I', 'G', 'E', 'S', 'T'] then (readOperand cs).map .digest
  else none

/-- The commands of one line of text: none for a blank or comment line; no answer for a line that is not of the
syntax (R61). -/
def assembleLine (cs : List Char) : Option (List Instr) :=
  if atLineEnd cs then some []
  else
    let w := takeWord (skipBlanks cs)
    (readCommand w.1 w.2).map expandLine

/-- The commands of a program, one command per line (R61). -/
def assembleCommands : List (List Char) → Option (List Instr)
  | [] => some []
  | l :: ls => (assembleLine l).bind fun is => (assembleCommands ls).map fun r => is ++ r

/-- The command stream of a program: its commands' bytes with nothing between them (R50, R61). -/
def assemble (lines : List (List Char)) : Option (List Byte) :=
  (assembleCommands lines).map fun is => is.flatMap encode

end Sys2Proof.Machine
end

