-- ==== Sys2Proof/Machine/HostSide.lean ====
section
/-! DEFINITION. The host-side function `HEX` (R111). It is no command and no part of the block (D12); it is here
because the spec defines it in full. -/

namespace Sys2Proof.Machine

/-- The character at position `v` of `0123456789abcdef` (R111). -/
def hexDigit (v : BitVec 4) : Char :=
  have := v.isLt
  #v['0', '1', '2', '3', '4', '5', '6', '7', '8', '9', 'a', 'b', 'c', 'd', 'e', 'f'][v.toNat]'(by omega)

/-- The characters of `HEX`: byte 0 first, the high nibble of each byte first (R111). -/
def hexChars (d : Block) : List Char :=
  d.toList.flatMap fun b => [hexDigit (b.extractLsb' 4 4), hexDigit (b.extractLsb' 0 4)]

/-- `HEX` (R111). -/
def hex (d : Block) : String := String.ofList (hexChars d)

end Sys2Proof.Machine
end

