-- ==== Sys2Proof/Safety.lean ====
section
/-! DEFINITION. The terms claims are written in: what a safe state is, the digest as a function of the message
(R110), what an instance has absorbed, when two states cannot be told apart, and sequences of commands. -/

namespace Sys2Proof.Machine

/-- A run has not gone wrong: `FAULT` is a terminal, non-final phase (R125). -/
def State.ok (s : State) : Prop := s.phase ≠ .fault

/-- What ties the interface registers together in every state a run from reset reaches: `cause` names a fault exactly
in `FAULT` (R17), `DONE` and `UseAfterFinal` come with a digest (R18, R19), and without a digest `dout` is zero
(R18). -/
structure State.Inv (s : State) : Prop where
  cause_iff : s.cause ≠ .none ↔ s.phase = .fault
  done_valid : s.phase = .done → s.dvalid = true
  misuse_valid : s.cause = .useAfterFinal → s.dvalid = true
  invalid_zero : s.dvalid = false → s.dout = zeroBlock

/-- The 16-byte block `D[16 i .. 16 i + 16]` of a byte sequence that is long enough. -/
def blockAt (D : List Byte) (i : Nat) : Block := Vector.ofFn fun k : Fin 16 => D.getD (16 * i + k.val) 0

/-- `state` and `checksum` after the blocks 0, ..., `q - 1` of `D`: `s_{i+1} = MIX(s_i, M_i)`, `c_{i+1} = CKS(c_i, M_i)`
(R110). -/
def hashBlocks (st ck : Block) (D : List Byte) : Nat → Block × Block
  | 0 => (st, ck)
  | q + 1 =>
    let p := hashBlocks st ck D q
    (mix p.1 (blockAt D q), cks p.2 (blockAt D q))

/-- `m ++ [p; p]` with `p = 16 - (len(m) mod 16)` (R110). -/
def padMessage (m : List Byte) : List Byte :=
  m ++ List.replicate (16 - m.length % 16) (BitVec.ofNat 8 (16 - m.length % 16))

/-- The digest as a function of the message (R110). -/
def md2 (m : List Byte) : Block :=
  let M := padMessage m
  let p := hashBlocks zeroBlock zeroBlock M (M.length / 16)
  mix p.1 p.2

/-- The live instance of `s` has absorbed exactly the message `m`: its whole blocks are in `state` and `checksum`, the
rest of it is `buffer[0..count]` (R92, R93). -/
structure State.Absorbed (s : State) (m : List Byte) : Prop where
  active : s.phase = .active
  chain : (s.state, s.checksum) = hashBlocks zeroBlock zeroBlock m (m.length / 16)
  count : s.count.toNat = m.length % 16
  tail : s.buffer.toList.take s.count.toNat = m.drop (16 * (m.length / 16))

/-- The registers that carry an instance agree, stale bytes of `buffer` aside (R94). -/
def State.SameInstance (s t : State) : Prop :=
  s.state = t.state ∧ s.checksum = t.checksum ∧ s.count = t.count ∧
    s.buffer.toList.take s.count.toNat = t.buffer.toList.take t.count.toNat

/-- What the host can see of the engine, and the host's own side: `dout`, `dvalid`, `STATUS` through `phase` and `cause`,
and the stream (R6, R18, R19). -/
def State.SameOutputs (s t : State) : Prop :=
  s.dout = t.dout ∧ s.dvalid = t.dvalid ∧ s.phase = t.phase ∧ s.cause = t.cause ∧ s.cpos = t.cpos ∧ s.input = t.input

/-- Two states that no command can tell apart: the same outputs, and where the instance is live the same instance (R12,
R108). -/
def State.Alike (s t : State) : Prop := s.SameOutputs t ∧ (s.phase = .active → s.SameInstance t)

/-- Two outcomes that cannot be told apart: both next states, alike, or the same stop. -/
def AlikeOutcomes : Host.Outcome State Fault Refusal → Host.Outcome State Fault Refusal → Prop
  | .next s, .next t => s.Alike t
  | .fault r, .fault r' => r = r'
  | .refused r, .refused r' => r = r'
  | _, _ => False

/-- The meanings of a list of commands, one after the other. -/
def execAll : List Instr → State → Host.Outcome State Fault Refusal
  | [], s => .next s
  | i :: is, s =>
    match exec i s with
    | .next t => execAll is t
    | .fault r => .fault r
    | .refused r => .refused r

/-- The message that a list of commands after an `INIT` absorbs: the payloads of its `UPDATE`s, in order. -/
def messageOf (is : List Instr) : List Byte := is.flatMap encodePayload

/-- A command that keeps a live instance going: `UPDATE` or `PEEK`. -/
def Streaming (i : Instr) : Prop := i = .peek ∨ ∃ payload, i = .update payload

/-- The stream bytes of a list of commands, as the host presents them. -/
def presented (is : List Instr) : List HostEvent := (is.flatMap encode).map .byte

/-- R95's byte-serial form of `UPDATE`, one payload byte. -/
def absorbByte (s : State) (b : Byte) : State :=
  let t := { s with buffer := s.buffer.setIfInBounds s.count.toNat b }
  if s.count = 15 then { t.compress t.buffer with count := 0 } else { t with count := s.count + 1 }

end Sys2Proof.Machine
end

