-- ==== Sys2Proof/Certificates/Slice0/Obligations.lean ====
section
/-! DEFINITION. The statements about the model, for the provers. -/

open Sys2Proof Sys2Proof.Machine

/-! ### The command stream -/

/-- R54, with the fields of R51 written as numbers: the opcode is the high nibble of the first byte, `len` the other twelve
bits, and exactly the rows of the opcode map decode. -/
def Obligations.DecodeHeaderFollowsTheOpcodeMap : Prop :=
  ∀ b0 b1 : Byte,
    decodeHeader (headerWord b0 b1) =
      if b0.toNat / 16 = 1 ∧ b0.toNat % 16 * 256 + b1.toNat = 0 then some .init
      else if b0.toNat / 16 = 2 then some (.update (BitVec.ofNat 12 (b0.toNat % 16 * 256 + b1.toNat)))
      else if b0.toNat / 16 = 3 ∧ b0.toNat % 16 * 256 + b1.toNat = 0 then some .final
      else if b0.toNat / 16 = 4 ∧ b0.toNat % 16 * 256 + b1.toNat = 0 then some .peek
      else none

/-- R55: the illegal headers are exactly the five ranges, 61437 values, and one of them at the head of the stream raises
`IllegalCommand` outside `FAULT`, whatever follows it and whatever its `len` field says; no byte is taken. -/
def Obligations.IllegalHeadersAreTheFiveRangesAndFault : Prop :=
  (∀ h : BitVec 16,
    decodeHeader h = none ↔
      h.toNat ≤ 0x0fff ∨ (0x1001 ≤ h.toNat ∧ h.toNat ≤ 0x1fff) ∨ (0x3001 ≤ h.toNat ∧ h.toNat ≤ 0x3fff) ∨
        (0x4001 ≤ h.toNat ∧ h.toNat ≤ 0x4fff) ∨ 0x5000 ≤ h.toNat) ∧
  ((List.range 65536).filter fun n => decodeHeader (BitVec.ofNat 16 n) = none).length = 61437 ∧
  ∀ (s : State) (b0 b1 : Byte) (rest : List HostEvent),
    s.phase ≠ .fault → s.input = .byte b0 :: .byte b1 :: rest → decodeHeader (headerWord b0 b1) = none →
      step s = .next { s with cause := .illegalCommand, phase := .fault }

/-- The encoding of every well-formed command, with any bytes behind it, decodes to that command and leaves those bytes:
no bit of a header and no payload byte is dropped. -/
def Obligations.DecodeOfEncodeIsTheCommand : Prop :=
  ∀ (i : Instr) (rest : List Byte), i.wf = true → decode (encode i ++ rest) = .command i rest

/-- The converse: bytes that decode to a command are that command's encoding and the rest, so a command has one encoding,
and the decoder answers well-formed commands only. -/
def Obligations.OnlyTheEncodingDecodesToACommand : Prop :=
  ∀ (bs : List Byte) (i : Instr) (rest : List Byte),
    decode bs = .command i rest → bs = encode i ++ rest ∧ i.wf = true

/-- A stream that grows never changes what has been decoded: a command stays the command and an illegal header stays
illegal, with more bytes behind them (R43, R50). -/
def Obligations.GrowingStreamKeepsWhatIsDecoded : Prop :=
  ∀ bs more : List Byte,
    (∀ i rest, decode bs = .command i rest → decode (bs ++ more) = .command i (rest ++ more)) ∧
    (∀ h, decode bs = .illegal h → decode (bs ++ more) = .illegal h)

/-- A few headers of R54, R55 and R63, written out as bytes, decode as the spec says. -/
def Obligations.SampleWordsDecode : Prop :=
  decode [0x10, 0x00, 0xaa] = .command .init [0xaa] ∧
  decode [0x20, 0x03, 0x61, 0x62, 0x63, 0x30] = .command (.update [0x61, 0x62, 0x63]) [0x30] ∧
  decode [0x20, 0x00] = .command (.update []) [] ∧
  decode [0x21, 0x2c, 0x00] = .needPayload 300 ∧
  decode [0x2f, 0xff] = .needPayload 4095 ∧
  decode [0x30, 0x00] = .command .final [] ∧
  decode [0x40, 0x00] = .command .peek [] ∧
  decode [0x30, 0x01] = .illegal 0x3001 ∧
  decode [0x00, 0x00] = .illegal 0x0000 ∧
  decode [0xff, 0xff] = .illegal 0xffff ∧
  decode [0x20] = .needHeader

/-! ### The step -/

/-- Outside `FAULT`, when the stream bytes at `cpos` decode to a command, the step is that command's meaning at that
state. -/
def Obligations.StepRunsTheDecodedCommand : Prop :=
  ∀ (s : State) (i : Instr) (rest : List Byte),
    s.phase ≠ .fault → decode (streamBytes s.input) = .command i rest → step s = exec i s

/-- The same from the bytes: when the host has presented the encoding of a well-formed command, with any events behind
it (a reset among them), the step runs that command. -/
def Obligations.StepRunsThePresentedCommand : Prop :=
  ∀ (s : State) (i : Instr) (events : List HostEvent),
    i.wf = true → s.phase ≠ .fault → s.input = (encode i).map .byte ++ events → step s = exec i s

/-- R123, the order of admission: in `FAULT` a byte is thrown away (one a step, and `cpos` kept, by notes/assumptions/5.md);
then an illegal header raises `IllegalCommand` in `ACTIVE` and in `DONE`; then `INIT` runs in both; then `DONE` raises
`UseAfterFinal`; otherwise the command runs. -/
def Obligations.AdmissionOrder : Prop :=
  ∀ s : State,
    (s.phase = .fault → ∀ b rest, s.input = .byte b :: rest → step s = .next { s with input := rest }) ∧
    (s.phase ≠ .fault → ∀ h, decode (streamBytes s.input) = .illegal h →
      step s = .next { s with cause := .illegalCommand, phase := .fault }) ∧
    (s.phase ≠ .fault → ∀ rest, decode (streamBytes s.input) = .command .init rest → step s = exec .init s) ∧
    (s.phase = .done → ∀ i rest, i ≠ .init → decode (streamBytes s.input) = .command i rest →
      step s = .next { s with cause := .useAfterFinal, phase := .fault }) ∧
    (s.phase = .active → ∀ i rest, decode (streamBytes s.input) = .command i rest → step s = exec i s)

/-- R58 beside R121: in `DONE` an `UPDATE` that has not wholly arrived takes no step (notes/assumptions/3.md for the outcome,
notes/assumptions/4.md for the reading that R58 holds there too); once the host presents the missing bytes it raises
`UseAfterFinal`, and no byte of it is taken. -/
def Obligations.UpdateInDoneFaultsOncePresented : Prop :=
  ∀ (s : State) (payload arrived missing : List Byte) (events : List HostEvent),
    (Instr.update payload).wf = true → s.phase = .done → encode (.update payload) = arrived ++ missing → missing ≠ [] →
      s.input = arrived.map .byte →
        step s = .refused .awaitingHost ∧
        step (s.present (missing.map .byte ++ events)) =
          .next { s with
            cause := .useAfterFinal, phase := .fault, input := (encode (.update payload)).map .byte ++ events }

/-- R124: whatever takes the engine into `FAULT` is one of the two faults and writes `cause` and `phase` only: no hashing
register, no output, not `cpos`, no stream byte; and `STATUS` shows `PHASE` = 2 and the code. -/
def Obligations.FaultEntryWritesOnlyCauseAndPhase : Prop :=
  ∀ s t : State,
    s.phase ≠ .fault → step s = .next t → t.phase = .fault →
      (t.cause = .illegalCommand ∨ t.cause = .useAfterFinal) ∧
      t = { s with cause := t.cause, phase := .fault } ∧
      t.status.extractLsb' 0 2 = 2 ∧ t.status.extractLsb' 4 4 = t.cause.code

/-- R125: in `FAULT` the engine takes any stream bytes, whole commands among them, and changes no register; only a reset
leaves the phase. That a step takes one byte and keeps `cpos` is the model's choice (notes/assumptions/5.md), and so is
that `cpos` counts from 0 again after the reset (notes/assumptions/7.md). -/
def Obligations.FaultPhaseDiscardsEveryByte : Prop :=
  (∀ (s : State) (bs : List Byte) (rest : List HostEvent),
    s.phase = .fault → s.input = bs.map .byte ++ rest →
      core.run bs.length s = .next { s with input := rest }) ∧
  (∀ s t : State, s.phase = .fault → step s = .next t → t.phase ≠ .fault →
    ∃ rest, s.input = .rst :: rest ∧ t = { State.reset with input := rest })

/-- R25: the reset event, in every phase and `FAULT` included, leaves each register at its reset value and `STATUS` at 0,
and the stream goes on with what the host presents behind it. -/
def Obligations.ResetEventClearsEveryRegister : Prop :=
  ∀ (s : State) (rest : List HostEvent),
    s.input = .rst :: rest →
      ∃ t, step s = .next t ∧
        (∀ k : Fin 16, t.state[k] = 0 ∧ t.checksum[k] = 0 ∧ t.buffer[k] = 0 ∧ t.dout[k] = 0) ∧
        t.count = 0 ∧ t.phase = .active ∧ t.cause = .none ∧ t.dvalid = false ∧ t.status = 0x00 ∧ t.input = rest

/-- R58 and R140: in `ACTIVE` and in `DONE` a command that a reset cuts short has no effect; the reset is taken and the bytes
behind it start a new stream. That `cpos` counts from 0 again is the model's choice (notes/assumptions/7.md), and that an
`UPDATE` short of payload in `DONE` is abandoned and does not fault is its reading (notes/assumptions/4.md). -/
def Obligations.ResetAbandonsAPartialCommand : Prop :=
  ∀ (s : State) (part : List Byte) (rest : List HostEvent),
    s.phase ≠ .fault → (decode part = .needHeader ∨ ∃ n, decode part = .needPayload n) →
      s.input = part.map .byte ++ .rst :: rest → step s = .next { State.reset with input := rest }

/-- R58: in `ACTIVE` and in `DONE`, with no reset presented, the engine takes no step on a lone header byte or on an `UPDATE`
whose payload has not all arrived, whatever bytes of it have; and those are the only streams it waits for there. In
`FAULT` it takes no step exactly when nothing is presented (R125). With a reset presented it never waits. The
outcome by which the model says 'no step' is its own choice (notes/assumptions/3.md), and that R58 holds for an `UPDATE` in
`DONE` is its reading (notes/assumptions/4.md). -/
def Obligations.IncompleteCommandTakesNoStep : Prop :=
  (∀ s : State,
    s.phase ≠ .fault → behindReset s.input = none →
      (step s = .refused .awaitingHost ↔
        (streamBytes s.input).length < 2 ∨
        ∃ b0 b1 bs, streamBytes s.input = b0 :: b1 :: bs ∧ b0.toNat / 16 = 2 ∧
          bs.length < b0.toNat % 16 * 256 + b1.toNat)) ∧
  (∀ s : State, s.phase = .fault → (step s = .refused .awaitingHost ↔ s.input = [])) ∧
  (∀ (s : State) (rest : List HostEvent), behindReset s.input = some rest → ∃ t, step s = .next t)

/-- R58: in `ACTIVE` and in `DONE` a command that has not wholly arrived takes no step (the outcome that says so is the model's
choice, notes/assumptions/3.md; for an `UPDATE` in `DONE` see also notes/assumptions/4.md), and once the host presents its
missing bytes the step is its meaning, on all of its bytes. -/
def Obligations.WaitingCommandRunsOncePresented : Prop :=
  ∀ (s : State) (i : Instr) (arrived missing : List Byte) (events : List HostEvent),
    i.wf = true → s.phase ≠ .fault → encode i = arrived ++ missing → missing ≠ [] → s.input = arrived.map .byte →
      step s = .refused .awaitingHost ∧
      step (s.present (missing.map .byte ++ events)) = exec i (s.present (missing.map .byte ++ events))

/-- Every step is one of four things: a command that runs to its end and takes its own bytes, a fault entry that takes
none, a byte thrown away in `FAULT`, or a reset (R6, R21, R43). One byte a step with `cpos` kept in `FAULT`, and `cpos` 0 after
a reset, are the model's choices (notes/assumptions/5.md and 7.md). -/
def Obligations.EveryStepIsACommandAFaultADiscardOrAReset : Prop :=
  ∀ s t : State,
    step s = .next t →
      (∃ i rest, s.phase ≠ .fault ∧ decode (streamBytes s.input) = .command i rest ∧ exec i s = .next t ∧
        t.phase ≠ .fault ∧ t.cpos = s.cpos + (encode i).length ∧ t.input = s.input.drop (encode i).length) ∨
      (∃ c, s.phase ≠ .fault ∧ c ≠ .none ∧ t = { s with cause := c, phase := .fault }) ∨
      (∃ b rest, s.phase = .fault ∧ s.input = .byte b :: rest ∧ t = { s with input := rest }) ∨
      (∃ rest, behindReset s.input = some rest ∧ t = { State.reset with input := rest })

/-- The engine never runs on without the host: each step takes something from the host, but for one fault entry. A command takes
its bytes (R21, R43), a byte in `FAULT` is discarded (R125), a reset takes what stands ahead of it (R140), and a fault entry
takes nothing (R124). What is left to take is measured by the model's own field `input` (notes/assumptions/1.md); one
byte a step in `FAULT` is its choice (notes/assumptions/5.md). -/
def Obligations.EveryStepTakesInputOrEntersFault : Prop :=
  ∀ s t : State,
    step s = .next t →
      t.input.length < s.input.length ∨ (t.input = s.input ∧ s.phase ≠ .fault ∧ t.phase = .fault)

/-- R152 and R16: from `DONE`, a step that leaves a live instance was an `INIT` or a reset, and no step stays in `DONE`. That
`cpos` is 0 after the reset is the model's choice (notes/assumptions/7.md). -/
def Obligations.OnlyInitOrResetRevivesDone : Prop :=
  ∀ s t : State,
    s.phase = .done → step s = .next t →
      t.phase ≠ .done ∧
      (t.phase = .active →
        (∃ rest, decode (streamBytes s.input) = .command .init rest ∧ exec .init s = .next t) ∨
        (∃ rest, behindReset s.input = some rest ∧ t = { State.reset with input := rest }))

/-- R18: `dout` and `dvalid` change only by an `INIT`, `FINAL` or `PEEK` that runs to its end, and by a reset; `UPDATE`, a fault
entry and the discarding in `FAULT` leave both. That `cpos` is 0 after the reset is the model's choice
(notes/assumptions/7.md). -/
def Obligations.OnlyInitFinalPeekResetWriteTheDigestOutput : Prop :=
  ∀ s t : State,
    step s = .next t → (t.dout ≠ s.dout ∨ t.dvalid ≠ s.dvalid) →
      (∃ i rest, s.phase ≠ .fault ∧ decode (streamBytes s.input) = .command i rest ∧ exec i s = .next t ∧
        t.phase ≠ .fault ∧ (i = .init ∨ i = .final ∨ i = .peek)) ∨
      (∃ rest, behindReset s.input = some rest ∧ t = { State.reset with input := rest })

/-! ### Invariant, status word, output port -/

/-- Every step keeps the invariant that ties `phase`, `cause`, `dvalid` and `dout` together. -/
def Obligations.EveryStepKeepsTheInvariant : Prop := ∀ s t : State, s.Inv → step s = .next t → t.Inv

/-- The state after reset meets the invariant. -/
def Obligations.ResetMeetsTheInvariant : Prop := State.reset.Inv

/-- R19: `STATUS = (cause << 4) | (dvalid << 2) | phase`, bit 3 reads 0, and under the invariant only six values occur. -/
def Obligations.StatusWordFieldsAndValues : Prop :=
  (∀ s : State,
    s.status.extractLsb' 0 2 = s.phase.code ∧ s.status.getLsbD 2 = s.dvalid ∧ s.status.getLsbD 3 = false ∧
    s.status.extractLsb' 4 4 = s.cause.code ∧
    s.status.toNat = 16 * s.cause.code.toNat + 4 * s.dvalid.toNat + s.phase.code.toNat) ∧
  (∀ s : State, s.Inv → s.status ∈ [0x00, 0x04, 0x05, 0x12, 0x16, 0x26])

/-- R42: `DOUT[8 i + 7 : 8 i] = dout[i]`. -/
def Obligations.DigestPortLanes : Prop :=
  ∀ (s : State) (i : Fin 16), s.doutPort.extractLsb' (8 * i.val) 8 = s.dout[i]

/-- R111: `HEX` has 32 characters, byte `i` at positions `2 i` and `2 i + 1`, the high nibble first, each character the one at
the nibble's position in the sixteen lower-case digits. -/
def Obligations.HexRendering : Prop :=
  ∀ d : Block,
    (hex d).toList.length = Config.digestHexChars ∧
    ∀ i : Fin 16,
      (hex d).toList[2 * i.val]? =
        ['0', '1', '2', '3', '4', '5', '6', '7', '8', '9', 'a', 'b', 'c', 'd', 'e', 'f'][d[i].toNat / 16]? ∧
      (hex d).toList[2 * i.val + 1]? =
        ['0', '1', '2', '3', '4', '5', '6', '7', '8', '9', 'a', 'b', 'c', 'd', 'e', 'f'][d[i].toNat % 16]?

/-! ### The compression step -/

/-- R32: every byte value occurs in `S` exactly once, and by R31's checks no index is a fixed point and the entries weighted
by their index sum to 4177956. The entries themselves are PRESUMED (notes/assumptions/9.md). -/
def Obligations.SboxIsAPermutation : Prop :=
  (∀ b : Byte, ∃ a, S a = b ∧ ∀ a', S a' = b → a' = a) ∧ (∀ a : Byte, S a ≠ a) ∧
  ((List.range 256).map fun n => n * (S (BitVec.ofNat 8 n)).toNat).sum = 4177956

/-- R35: the layout of the scratch array at the start of a compression step. -/
def Obligations.ScratchArrayLayout : Prop :=
  ∀ (st input : Block) (i : Fin 16),
    (loadX st input)[i.val] = st[i] ∧ (loadX st input)[16 + i.val] = input[i] ∧
    (loadX st input)[32 + i.val] = st[i] ^^^ input[i]

/-- R72: each position is substituted with the index the position before it left, the first with the index the round began
with; the round ends with the 8-bit add of its own index. -/
def Obligations.RoundIsTheSubstitutionChain : Prop :=
  ∀ (j : Nat) (w : Scratch),
    (mixRound j w).x[0] = w.x[0] ^^^ S w.t ∧
    (∀ k (h : k < 47), (mixRound j w).x[k + 1] = w.x[k + 1] ^^^ S ((mixRound j w).x[k]'(by omega))) ∧
    (mixRound j w).t.toNat = ((mixRound j w).x[47].toNat + j) % 256

/-- R73: MIX is the rounds 0 to 17 in order from the loaded scratch array with `t` = 0, of which `x[0..16]` is kept. -/
def Obligations.MixIsEighteenRounds : Prop :=
  ∀ (st input : Block) (W : Nat → Scratch),
    W 0 = { x := loadX st input, t := 0 } → (∀ j < 18, W (j + 1) = mixRound j (W j)) →
      ∀ i : Fin 16, (mix st input)[i] = (W 18).x[i.val]

/-- R74 and R79: exclusive-or into the old checksum, the chain byte seeded from the old `checksum[15]` and then the byte just
written. -/
def Obligations.ChecksumIsTheXorChain : Prop :=
  ∀ ck input : Block,
    (cks ck input)[0] = ck[0] ^^^ S (input[0] ^^^ ck[15]) ∧
    ∀ j (h : j < 15),
      (cks ck input)[j + 1] = ck[j + 1] ^^^ S (input[j + 1] ^^^ (cks ck input)[j]'(by omega))

/-! ### The commands -/

/-- R90: `INIT` in `ACTIVE` and in `DONE` writes every register but `cause` to its fresh value and takes its two bytes. -/
def Obligations.InitStartsAFreshInstance : Prop :=
  ∀ s : State, s.phase ≠ .fault →
    exec .init s = .next
      { state := Vector.replicate 16 0, checksum := Vector.replicate 16 0, buffer := Vector.replicate 16 0, count := 0,
        phase := .active, cause := s.cause, dout := Vector.replicate 16 0, dvalid := false, cpos := s.cpos + 2,
        input := s.input.drop 2 }

/-- R93: the closed form of `UPDATE`, frame and completion included. With `D` the buffered bytes and then the payload, and
`q` its number of whole blocks: the blocks of `D` go through COMPRESS in order, the rest is `buffer[0..count]`, and the
stale bytes are the old ones if `q` = 0 and those of the first block otherwise. -/
def Obligations.UpdateClosedForm : Prop :=
  ∀ (s : State) (bytes : List Byte),
    s.phase = .active →
      let c := s.count.toNat
      let D := s.buffer.toList.take c ++ bytes
      let q := (c + bytes.length) / 16
      ∃ t, exec (.update bytes) s = .next t ∧
        (t.state, t.checksum) = hashBlocks s.state s.checksum D q ∧
        t.count.toNat = (c + bytes.length) % 16 ∧
        (∀ k : Fin 16, t.buffer[k] =
          if k.val < t.count.toNat then D.getD (16 * q + k.val) 0
          else if q = 0 then s.buffer[k] else D.getD k.val 0) ∧
        t.phase = .active ∧ t.cause = s.cause ∧ t.dout = s.dout ∧ t.dvalid = s.dvalid ∧
        t.cpos = s.cpos + 2 + bytes.length ∧ t.input = s.input.drop (2 + bytes.length)

/-- R57 and R93: an `UPDATE` with an empty payload changes no register; it takes its two bytes. -/
def Obligations.EmptyUpdateIsTheNoOperation : Prop :=
  ∀ s : State, s.phase = .active →
    exec (.update []) s = .next { s with cpos := s.cpos + 2, input := s.input.drop 2 }

/-- R105, R106 and R108: what `FINAL` leaves in every register. `P` is the padded block. -/
def Obligations.FinalDeliversTheDigest : Prop :=
  ∀ (s : State) (P : Block),
    s.phase = .active →
    (∀ k : Fin 16, P[k] = if k.val < s.count.toNat then s.buffer[k] else BitVec.ofNat 8 (16 - s.count.toNat)) →
      let st := mix s.state P
      let ck := cks s.checksum P
      exec .final s = .next
        { state := mix st ck, checksum := cks ck ck, buffer := P, count := s.count, phase := .done, cause := s.cause,
          dout := mix st ck, dvalid := true, cpos := s.cpos + 2, input := s.input.drop 2 }

/-- R109: `PEEK` writes `dout` and `dvalid` only, `dout` with the digest that `FINAL` would deliver from the same padded
block. -/
def Obligations.PeekWritesOnlyTheDigestOutput : Prop :=
  ∀ (s : State) (P : Block),
    s.phase = .active →
    (∀ k : Fin 16, P[k] = if k.val < s.count.toNat then s.buffer[k] else BitVec.ofNat 8 (16 - s.count.toNat)) →
      exec .peek s = .next
        { s with
          dout := mix (mix s.state P) (cks s.checksum P), dvalid := true, cpos := s.cpos + 2, input := s.input.drop 2 }

/-- A `PEEK` before a `FINAL` shows the digest that the `FINAL` then delivers, and does not change it (R112). -/
def Obligations.PeekDoesNotDisturbTheDigest : Prop :=
  ∀ s : State, s.phase = .active →
    ∃ p f g, exec .peek s = .next p ∧ exec .final p = .next f ∧ exec .final s = .next g ∧
      p.dout = g.dout ∧ f.dout = g.dout ∧ f.state = g.state ∧ f.checksum = g.checksum ∧ f.buffer = g.buffer

/-- R121, where the commands trap: in `DONE` every command but `INIT` raises `UseAfterFinal`, an `UPDATE` of any length
included, and takes no byte. -/
def Obligations.CommandsAfterFinalRaiseUseAfterFinal : Prop :=
  ∀ (s : State) (i : Instr),
    s.phase = .done → i ≠ .init → exec i s = .next { s with cause := .useAfterFinal, phase := .fault }

/-- R125 at the level of a meaning: in `FAULT` a whole command is thrown away and no register changes. (No step calls a
meaning there: notes/assumptions/6.md.) -/
def Obligations.CommandsInFaultAreThrownAway : Prop :=
  ∀ (s : State) (i : Instr),
    s.phase = .fault → exec i s = .next { s with input := s.input.drop (encode i).length }

/-- R22: which registers a command that runs in a live instance leaves as they were. -/
def Obligations.CommandFrames : Prop :=
  ∀ (s t : State) (i : Instr),
    s.phase = .active → exec i s = .next t →
      t.cause = s.cause ∧
      (∀ payload, i = .update payload → t.phase = s.phase ∧ t.dout = s.dout ∧ t.dvalid = s.dvalid) ∧
      (i = .final → t.count = s.count ∧ ∀ k : Fin 16, k.val < s.count.toNat → t.buffer[k] = s.buffer[k]) ∧
      (i = .peek → t.state = s.state ∧ t.checksum = s.checksum ∧ t.buffer = s.buffer ∧ t.count = s.count ∧
        t.phase = s.phase)

/-! ### Whole messages -/

/-- R94: an `UPDATE` of `a` and then one of `b` leave the same instance as one `UPDATE` of `a ++ b`; only stale bytes of
`buffer` may differ. -/
def Obligations.ChunkingInvariance : Prop :=
  ∀ (s : State) (a b : List Byte),
    s.phase = .active →
      ∃ t u, execAll [.update a, .update b] s = .next t ∧ exec (.update (a ++ b)) s = .next u ∧ t.SameInstance u ∧
        t.phase = u.phase ∧ t.cause = u.cause ∧ t.dout = u.dout ∧ t.dvalid = u.dvalid

/-- R95: taking the payload one byte at a time reaches the same instance as `UPDATE`. -/
def Obligations.ByteSerialUpdateIsEquivalent : Prop :=
  ∀ (s : State) (bytes : List Byte),
    s.phase = .active → ∃ t, exec (.update bytes) s = .next t ∧ t.SameInstance (bytes.foldl absorbByte s)

/-- An instance holds the message it has absorbed: `INIT` starts with the empty message, `UPDATE` appends its payload, `PEEK`
changes nothing and shows the digest of the message so far, `FINAL` delivers its digest (R92, R110). -/
def Obligations.InstanceHoldsItsMessage : Prop :=
  (∀ s : State, s.phase ≠ .fault → ∃ t, exec .init s = .next t ∧ t.Absorbed []) ∧
  (∀ (s : State) (m : List Byte), s.Absorbed m →
    (∀ payload, ∃ t, exec (.update payload) s = .next t ∧ t.Absorbed (m ++ payload)) ∧
    (∃ t, exec .peek s = .next t ∧ t.Absorbed m ∧ t.dout = md2 m ∧ t.dvalid = true) ∧
    (∃ t, exec .final s = .next t ∧ t.dout = md2 m ∧ t.dvalid = true ∧ t.phase = .done))

/-- R110: for every sequence `INIT` (in any phase but `FAULT`) or reset, then `UPDATE`s with any number of `PEEK`s between
them, then `FINAL`, `dout` is the MD2 digest of the concatenated payloads; and a `PEEK` at any point shows the digest of
those so far. -/
def Obligations.CommandSequenceDeliversTheDigest : Prop :=
  ∀ is : List Instr, (∀ i ∈ is, Streaming i) →
    (∀ s : State, s.phase ≠ .fault →
      (∃ t, execAll (.init :: is ++ [.final]) s = .next t ∧ t.dout = md2 (messageOf is) ∧ t.dvalid = true ∧
        t.phase = .done ∧ t.cause = s.cause) ∧
      (∃ t, execAll (.init :: is ++ [.peek]) s = .next t ∧ t.dout = md2 (messageOf is) ∧ t.dvalid = true ∧
        t.phase = .active ∧ t.cause = s.cause)) ∧
    (∀ (s r : State) (rest : List HostEvent), s.input = .rst :: rest → step s = .next r →
      (∃ t, execAll (is ++ [.final]) r = .next t ∧ t.dout = md2 (messageOf is) ∧ t.dvalid = true ∧ t.phase = .done) ∧
      (∃ t, execAll (is ++ [.peek]) r = .next t ∧ t.dout = md2 (messageOf is) ∧ t.dvalid = true ∧ t.phase = .active))

/-- The same through the stream: presented as bytes to the engine in `ACTIVE` or `DONE`, with anything behind them, these
commands are run one a step and leave the digest on `dout`, and all their bytes and no others are taken. -/
def Obligations.PresentedStreamDeliversTheDigest : Prop :=
  ∀ (s : State) (is : List Instr) (events : List HostEvent),
    s.phase ≠ .fault → (∀ i ∈ is, Streaming i ∧ i.wf = true) →
      s.input = presented (.init :: is ++ [.final]) ++ events →
        ∃ t : State, core.run (is.length + 2) s = .next t ∧ t.dout = md2 (messageOf is) ∧ t.dvalid = true ∧
          t.phase = .done ∧ t.input = events ∧ t.cpos = s.cpos + ((Instr.init :: is ++ [Instr.final]).flatMap encode).length

/-- R12 and R108: no output depends on a stale byte of `buffer`, nor after `FINAL` on any hashing register: two states that
agree on the outputs, and in `ACTIVE` on the instance, stay so under every step. -/
def Obligations.StaleBytesNeverReachAnOutput : Prop :=
  ∀ s t : State, s.Alike t → AlikeOutcomes (step s) (step t)

/-- After an `INIT` nothing of the earlier instance is left: whatever commands follow it, the outputs do not depend on the
hashing registers or the digest output before it. -/
def Obligations.InitForgetsTheEarlierInstance : Prop :=
  ∀ (s t : State) (is : List Instr),
    s.phase ≠ .fault → t.phase ≠ .fault → s.cause = t.cause → s.cpos = t.cpos → s.input = t.input →
      AlikeOutcomes (execAll (.init :: is) s) (execAll (.init :: is) t)

/-- R62: `UPDATE*` splits an operand of any length into commands that have encodings and that leave the same instance as
one `update` of the whole operand. -/
def Obligations.UpdateStarExpansion : Prop :=
  ∀ m : List Byte,
    (∀ i ∈ updateStar m, i.wf = true) ∧ messageOf (updateStar m) = m ∧
    ∀ s : State, s.phase = .active →
      ∃ t u, execAll (updateStar m) s = .next t ∧ exec (.update m) s = .next u ∧ t.SameInstance u

/-- R62 and R96: `DIGEST` of any operand, run from any state outside `FAULT`, leaves the operand's digest on `dout`. -/
def Obligations.DigestPseudoCommand : Prop :=
  ∀ (s : State) (m : List Byte),
    s.phase ≠ .fault →
      ∃ t, execAll (expandLine (.digest m)) s = .next t ∧ t.dout = md2 m ∧ t.dvalid = true ∧ t.phase = .done

/-- R61, the two forms of an operand, for every operand: printable ASCII between quotes stands for its characters' codes, and
hex pairs with a blank between two of them stand for their bytes. Blanks in front of the first pair or behind the last, and
a quoted text of no characters, are the model's choice (notes/assumptions/13.md): R61's own form is `before = after = 0`. -/
def Obligations.OperandTextAssembles : Prop :=
  (∀ text : List Char, (∀ c ∈ text, 0x20 ≤ c.toNat ∧ c.toNat ≤ 0x7e ∧ c ≠ '"') →
    assembleLine (['U', 'P', 'D', 'A', 'T', 'E', ' ', '"'] ++ text ++ ['"']) =
      some (updateStar (text.map fun c => BitVec.ofNat 8 c.toNat))) ∧
  (∀ (m : List Byte) (before after : Nat),
    assembleLine (['U', 'P', 'D', 'A', 'T', 'E', ' ', 'x'] ++ List.replicate before ' ' ++
        [' '].intercalate (m.map fun b => [hexDigit (b.extractLsb' 4 4), hexDigit (b.extractLsb' 0 4)]) ++
        List.replicate after ' ') =
      some (updateStar m))
end

