-- ==== Sys2Proof/Laws/State.lean ====
section
/-! SUPPORT. One lemma per field per update: what each shared operation does to each field of the state. -/

namespace Sys2Proof.Machine

variable (s : State)

@[simp] theorem State.compress_state (blk : Block) : (s.compress blk).state = mix s.state blk := rfl
@[simp] theorem State.compress_checksum (blk : Block) : (s.compress blk).checksum = cks s.checksum blk := rfl
@[simp] theorem State.compress_buffer (blk : Block) : (s.compress blk).buffer = s.buffer := rfl
@[simp] theorem State.compress_count (blk : Block) : (s.compress blk).count = s.count := rfl
@[simp] theorem State.compress_phase (blk : Block) : (s.compress blk).phase = s.phase := rfl
@[simp] theorem State.compress_cause (blk : Block) : (s.compress blk).cause = s.cause := rfl
@[simp] theorem State.compress_dout (blk : Block) : (s.compress blk).dout = s.dout := rfl
@[simp] theorem State.compress_dvalid (blk : Block) : (s.compress blk).dvalid = s.dvalid := rfl
@[simp] theorem State.compress_cpos (blk : Block) : (s.compress blk).cpos = s.cpos := rfl
@[simp] theorem State.compress_input (blk : Block) : (s.compress blk).input = s.input := rfl

@[simp] theorem State.raise_state (c : Cause) : (s.raise c).state = s.state := rfl
@[simp] theorem State.raise_checksum (c : Cause) : (s.raise c).checksum = s.checksum := rfl
@[simp] theorem State.raise_buffer (c : Cause) : (s.raise c).buffer = s.buffer := rfl
@[simp] theorem State.raise_count (c : Cause) : (s.raise c).count = s.count := rfl
@[simp] theorem State.raise_phase (c : Cause) : (s.raise c).phase = .fault := rfl
@[simp] theorem State.raise_cause (c : Cause) : (s.raise c).cause = c := rfl
@[simp] theorem State.raise_dout (c : Cause) : (s.raise c).dout = s.dout := rfl
@[simp] theorem State.raise_dvalid (c : Cause) : (s.raise c).dvalid = s.dvalid := rfl
@[simp] theorem State.raise_cpos (c : Cause) : (s.raise c).cpos = s.cpos := rfl
@[simp] theorem State.raise_input (c : Cause) : (s.raise c).input = s.input := rfl

@[simp] theorem State.consume_state (n : Nat) : (s.consume n).state = s.state := rfl
@[simp] theorem State.consume_checksum (n : Nat) : (s.consume n).checksum = s.checksum := rfl
@[simp] theorem State.consume_buffer (n : Nat) : (s.consume n).buffer = s.buffer := rfl
@[simp] theorem State.consume_count (n : Nat) : (s.consume n).count = s.count := rfl
@[simp] theorem State.consume_phase (n : Nat) : (s.consume n).phase = s.phase := rfl
@[simp] theorem State.consume_cause (n : Nat) : (s.consume n).cause = s.cause := rfl
@[simp] theorem State.consume_dout (n : Nat) : (s.consume n).dout = s.dout := rfl
@[simp] theorem State.consume_dvalid (n : Nat) : (s.consume n).dvalid = s.dvalid := rfl
@[simp] theorem State.consume_cpos (n : Nat) : (s.consume n).cpos = s.cpos + n := rfl
@[simp] theorem State.consume_input (n : Nat) : (s.consume n).input = s.input.drop n := rfl

@[simp] theorem State.discard_state (n : Nat) : (s.discard n).state = s.state := rfl
@[simp] theorem State.discard_checksum (n : Nat) : (s.discard n).checksum = s.checksum := rfl
@[simp] theorem State.discard_buffer (n : Nat) : (s.discard n).buffer = s.buffer := rfl
@[simp] theorem State.discard_count (n : Nat) : (s.discard n).count = s.count := rfl
@[simp] theorem State.discard_phase (n : Nat) : (s.discard n).phase = s.phase := rfl
@[simp] theorem State.discard_cause (n : Nat) : (s.discard n).cause = s.cause := rfl
@[simp] theorem State.discard_dout (n : Nat) : (s.discard n).dout = s.dout := rfl
@[simp] theorem State.discard_dvalid (n : Nat) : (s.discard n).dvalid = s.dvalid := rfl
@[simp] theorem State.discard_cpos (n : Nat) : (s.discard n).cpos = s.cpos := rfl
@[simp] theorem State.discard_input (n : Nat) : (s.discard n).input = s.input.drop n := rfl

@[simp] theorem State.fresh_state : s.fresh.state = zeroBlock := rfl
@[simp] theorem State.fresh_checksum : s.fresh.checksum = zeroBlock := rfl
@[simp] theorem State.fresh_buffer : s.fresh.buffer = zeroBlock := rfl
@[simp] theorem State.fresh_count : s.fresh.count = 0 := rfl
@[simp] theorem State.fresh_phase : s.fresh.phase = .active := rfl
@[simp] theorem State.fresh_cause : s.fresh.cause = s.cause := rfl
@[simp] theorem State.fresh_dout : s.fresh.dout = zeroBlock := rfl
@[simp] theorem State.fresh_dvalid : s.fresh.dvalid = false := rfl
@[simp] theorem State.fresh_cpos : s.fresh.cpos = s.cpos := rfl
@[simp] theorem State.fresh_input : s.fresh.input = s.input := rfl

@[simp] theorem State.fill_state (bs : List Byte) : (s.fill bs).state = s.state := rfl
@[simp] theorem State.fill_checksum (bs : List Byte) : (s.fill bs).checksum = s.checksum := rfl
@[simp] theorem State.fill_buffer (bs : List Byte) : (s.fill bs).buffer = writeBytes s.buffer s.count.toNat (bs.take (available bs.length s.count)) := rfl
@[simp] theorem State.fill_count (bs : List Byte) : (s.fill bs).count = s.count := rfl
@[simp] theorem State.fill_phase (bs : List Byte) : (s.fill bs).phase = s.phase := rfl
@[simp] theorem State.fill_cause (bs : List Byte) : (s.fill bs).cause = s.cause := rfl
@[simp] theorem State.fill_dout (bs : List Byte) : (s.fill bs).dout = s.dout := rfl
@[simp] theorem State.fill_dvalid (bs : List Byte) : (s.fill bs).dvalid = s.dvalid := rfl
@[simp] theorem State.fill_cpos (bs : List Byte) : (s.fill bs).cpos = s.cpos := rfl
@[simp] theorem State.fill_input (bs : List Byte) : (s.fill bs).input = s.input := rfl

@[simp] theorem State.store_state (bs : List Byte) : (s.store bs).state = s.state := rfl
@[simp] theorem State.store_checksum (bs : List Byte) : (s.store bs).checksum = s.checksum := rfl
@[simp] theorem State.store_buffer (bs : List Byte) : (s.store bs).buffer = writeBytes s.buffer 0 bs := rfl
@[simp] theorem State.store_count (bs : List Byte) : (s.store bs).count = BitVec.ofNat 4 bs.length := rfl
@[simp] theorem State.store_phase (bs : List Byte) : (s.store bs).phase = s.phase := rfl
@[simp] theorem State.store_cause (bs : List Byte) : (s.store bs).cause = s.cause := rfl
@[simp] theorem State.store_dout (bs : List Byte) : (s.store bs).dout = s.dout := rfl
@[simp] theorem State.store_dvalid (bs : List Byte) : (s.store bs).dvalid = s.dvalid := rfl
@[simp] theorem State.store_cpos (bs : List Byte) : (s.store bs).cpos = s.cpos := rfl
@[simp] theorem State.store_input (bs : List Byte) : (s.store bs).input = s.input := rfl

@[simp] theorem State.present_state (es : List HostEvent) : (s.present es).state = s.state := rfl
@[simp] theorem State.present_checksum (es : List HostEvent) : (s.present es).checksum = s.checksum := rfl
@[simp] theorem State.present_buffer (es : List HostEvent) : (s.present es).buffer = s.buffer := rfl
@[simp] theorem State.present_count (es : List HostEvent) : (s.present es).count = s.count := rfl
@[simp] theorem State.present_phase (es : List HostEvent) : (s.present es).phase = s.phase := rfl
@[simp] theorem State.present_cause (es : List HostEvent) : (s.present es).cause = s.cause := rfl
@[simp] theorem State.present_dout (es : List HostEvent) : (s.present es).dout = s.dout := rfl
@[simp] theorem State.present_dvalid (es : List HostEvent) : (s.present es).dvalid = s.dvalid := rfl
@[simp] theorem State.present_cpos (es : List HostEvent) : (s.present es).cpos = s.cpos := rfl
@[simp] theorem State.present_input (es : List HostEvent) : (s.present es).input = s.input ++ es := rfl

@[simp] theorem State.finish_state : s.finish.state = mix (mix s.state (padded s.buffer s.count)) (cks s.checksum (padded s.buffer s.count)) := rfl
@[simp] theorem State.finish_checksum : s.finish.checksum = cks (cks s.checksum (padded s.buffer s.count)) (cks s.checksum (padded s.buffer s.count)) := rfl
@[simp] theorem State.finish_buffer : s.finish.buffer = padded s.buffer s.count := rfl
@[simp] theorem State.finish_count : s.finish.count = s.count := rfl
@[simp] theorem State.finish_phase : s.finish.phase = s.phase := rfl
@[simp] theorem State.finish_cause : s.finish.cause = s.cause := rfl
@[simp] theorem State.finish_dout : s.finish.dout = s.dout := rfl
@[simp] theorem State.finish_dvalid : s.finish.dvalid = s.dvalid := rfl
@[simp] theorem State.finish_cpos : s.finish.cpos = s.cpos := rfl
@[simp] theorem State.finish_input : s.finish.input = s.input := rfl

@[simp] theorem State.deliver_state : s.deliver.state = s.finish.state := rfl
@[simp] theorem State.deliver_checksum : s.deliver.checksum = s.finish.checksum := rfl
@[simp] theorem State.deliver_buffer : s.deliver.buffer = padded s.buffer s.count := rfl
@[simp] theorem State.deliver_count : s.deliver.count = s.count := rfl
@[simp] theorem State.deliver_phase : s.deliver.phase = .done := rfl
@[simp] theorem State.deliver_cause : s.deliver.cause = s.cause := rfl
@[simp] theorem State.deliver_dout : s.deliver.dout = s.finish.state := rfl
@[simp] theorem State.deliver_dvalid : s.deliver.dvalid = true := rfl
@[simp] theorem State.deliver_cpos : s.deliver.cpos = s.cpos := rfl
@[simp] theorem State.deliver_input : s.deliver.input = s.input := rfl

@[simp] theorem State.exhibit_state : s.exhibit.state = s.state := rfl
@[simp] theorem State.exhibit_checksum : s.exhibit.checksum = s.checksum := rfl
@[simp] theorem State.exhibit_buffer : s.exhibit.buffer = s.buffer := rfl
@[simp] theorem State.exhibit_count : s.exhibit.count = s.count := rfl
@[simp] theorem State.exhibit_phase : s.exhibit.phase = s.phase := rfl
@[simp] theorem State.exhibit_cause : s.exhibit.cause = s.cause := rfl
@[simp] theorem State.exhibit_dout : s.exhibit.dout = s.finish.state := rfl
@[simp] theorem State.exhibit_dvalid : s.exhibit.dvalid = true := rfl
@[simp] theorem State.exhibit_cpos : s.exhibit.cpos = s.cpos := rfl
@[simp] theorem State.exhibit_input : s.exhibit.input = s.input := rfl

@[simp] theorem State.afterReset_state (rest : List HostEvent) : (State.afterReset rest).state = State.reset.state := rfl
@[simp] theorem State.afterReset_checksum (rest : List HostEvent) : (State.afterReset rest).checksum = State.reset.checksum := rfl
@[simp] theorem State.afterReset_buffer (rest : List HostEvent) : (State.afterReset rest).buffer = State.reset.buffer := rfl
@[simp] theorem State.afterReset_count (rest : List HostEvent) : (State.afterReset rest).count = State.reset.count := rfl
@[simp] theorem State.afterReset_phase (rest : List HostEvent) : (State.afterReset rest).phase = State.reset.phase := rfl
@[simp] theorem State.afterReset_cause (rest : List HostEvent) : (State.afterReset rest).cause = State.reset.cause := rfl
@[simp] theorem State.afterReset_dout (rest : List HostEvent) : (State.afterReset rest).dout = State.reset.dout := rfl
@[simp] theorem State.afterReset_dvalid (rest : List HostEvent) : (State.afterReset rest).dvalid = State.reset.dvalid := rfl
@[simp] theorem State.afterReset_cpos (rest : List HostEvent) : (State.afterReset rest).cpos = State.reset.cpos := rfl
@[simp] theorem State.afterReset_input (rest : List HostEvent) : (State.afterReset rest).input = rest := rfl

@[simp] theorem State.reset_state : State.reset.state = zeroBlock := rfl
@[simp] theorem State.reset_checksum : State.reset.checksum = zeroBlock := rfl
@[simp] theorem State.reset_buffer : State.reset.buffer = zeroBlock := rfl
@[simp] theorem State.reset_count : State.reset.count = 0 := rfl
@[simp] theorem State.reset_phase : State.reset.phase = .active := rfl
@[simp] theorem State.reset_cause : State.reset.cause = .none := rfl
@[simp] theorem State.reset_dout : State.reset.dout = zeroBlock := rfl
@[simp] theorem State.reset_dvalid : State.reset.dvalid = false := rfl
@[simp] theorem State.reset_cpos : State.reset.cpos = 0 := rfl
@[simp] theorem State.reset_input : State.reset.input = [] := rfl

theorem State.compressAll_nil : s.compressAll [] = s := rfl

theorem State.compressAll_cons (b : Block) (bs : List Block) :
    s.compressAll (b :: bs) = (s.compress b).compressAll bs := rfl

@[simp] theorem State.compressAll_buffer (bs : List Block) : (s.compressAll bs).buffer = s.buffer := by
  induction bs generalizing s with
  | nil => rfl
  | cons b bs ih => simp [State.compressAll_cons, ih]

@[simp] theorem State.compressAll_count (bs : List Block) : (s.compressAll bs).count = s.count := by
  induction bs generalizing s with
  | nil => rfl
  | cons b bs ih => simp [State.compressAll_cons, ih]

@[simp] theorem State.compressAll_phase (bs : List Block) : (s.compressAll bs).phase = s.phase := by
  induction bs generalizing s with
  | nil => rfl
  | cons b bs ih => simp [State.compressAll_cons, ih]

@[simp] theorem State.compressAll_cause (bs : List Block) : (s.compressAll bs).cause = s.cause := by
  induction bs generalizing s with
  | nil => rfl
  | cons b bs ih => simp [State.compressAll_cons, ih]

@[simp] theorem State.compressAll_dout (bs : List Block) : (s.compressAll bs).dout = s.dout := by
  induction bs generalizing s with
  | nil => rfl
  | cons b bs ih => simp [State.compressAll_cons, ih]

@[simp] theorem State.compressAll_dvalid (bs : List Block) : (s.compressAll bs).dvalid = s.dvalid := by
  induction bs generalizing s with
  | nil => rfl
  | cons b bs ih => simp [State.compressAll_cons, ih]

@[simp] theorem State.compressAll_cpos (bs : List Block) : (s.compressAll bs).cpos = s.cpos := by
  induction bs generalizing s with
  | nil => rfl
  | cons b bs ih => simp [State.compressAll_cons, ih]

@[simp] theorem State.compressAll_input (bs : List Block) : (s.compressAll bs).input = s.input := by
  induction bs generalizing s with
  | nil => rfl
  | cons b bs ih => simp [State.compressAll_cons, ih]

end Sys2Proof.Machine
end

