-- ==== Sys2Proof/Laws/Operands.lean ====
section
/-! SUPPORT. What the array operations of Machine/Operands.lean do: where `writeBytes` puts bytes, what `splitBlocks`
cuts off, what the padded block is. -/

namespace Sys2Proof.Machine

theorem toList_writeBytes (buffer : Block) (k : Nat) (bs : List Byte) (h : k + bs.length ≤ 16) :
    (writeBytes buffer k bs).toList = buffer.toList.take k ++ bs ++ buffer.toList.drop (k + bs.length) := by
  induction bs generalizing buffer k with
  | nil => simp [writeBytes]
  | cons b bs ih =>
    simp only [List.length_cons] at h
    have hk : k < 16 := by omega
    rw [writeBytes, ih _ _ (by omega), Vector.toList_setIfInBounds]
    apply List.ext_getElem?
    intro i
    simp only [List.getElem?_append, List.length_append, List.length_take, List.length_set, Vector.length_toList,
      List.length_cons, List.getElem?_take, List.getElem?_set, List.getElem?_drop, List.getElem?_cons]
    grind

/-- Element `i` after writing: the bytes written where they were written, the old element elsewhere. -/
theorem getElem_writeBytes (buffer : Block) (k : Nat) (bs : List Byte) (i : Nat) (hi : i < 16) (h : k + bs.length ≤ 16) :
    (writeBytes buffer k bs)[i] = if k ≤ i ∧ i < k + bs.length then bs.getD (i - k) 0 else buffer[i] := by
  rw [← Vector.getElem_toList (by simpa using hi)]
  simp only [toList_writeBytes buffer k bs h]
  grind

theorem toList_padded (buffer : Block) (count : BitVec 4) :
    (padded buffer count).toList =
      buffer.toList.take count.toNat ++ List.replicate (16 - count.toNat) (BitVec.ofNat 8 (16 - count.toNat)) := by
  have := count.isLt
  rw [padded, toList_writeBytes _ _ _ (by simp [paddingLength]; omega)]
  simp [paddingLength]
  omega

theorem getElem_padded (buffer : Block) (count : BitVec 4) (i : Nat) (hi : i < 16) :
    (padded buffer count)[i] = if i < count.toNat then buffer[i] else BitVec.ofNat 8 (16 - count.toNat) := by
  have := count.isLt
  rw [padded, getElem_writeBytes _ _ _ _ hi (by simp [paddingLength]; omega)]
  grind [paddingLength]

/-! ### Blocks of a byte sequence -/

@[simp] theorem getElem_blockAt (D : List Byte) (i k : Nat) (hk : k < 16) :
    (blockAt D i)[k] = D.getD (16 * i + k) 0 := by
  simp [blockAt]

theorem blockAt_drop (D : List Byte) (i : Nat) : blockAt (D.drop 16) i = blockAt D (i + 1) := by
  refine Vector.ext fun k hk => ?_
  simp only [getElem_blockAt _ _ _ hk]
  grind

/-- A block depends on its own sixteen bytes only. -/
theorem blockAt_congr {D E : List Byte} {i : Nat} (h : ∀ k < 16, D.getD (16 * i + k) 0 = E.getD (16 * i + k) 0) :
    blockAt D i = blockAt E i := by
  refine Vector.ext fun k hk => ?_
  simp only [getElem_blockAt _ _ _ hk, h k hk]

theorem blockAt_toList (b : Block) (rest : List Byte) : blockAt (b.toList ++ rest) 0 = b := by
  refine Vector.ext fun k hk => ?_
  simp only [getElem_blockAt _ _ _ hk]
  grind

theorem eq_cons16 (l : List Byte) (h : 16 ≤ l.length) :
    l = l[0] :: l[1] :: l[2] :: l[3] :: l[4] :: l[5] :: l[6] :: l[7] :: l[8] :: l[9] :: l[10] :: l[11] :: l[12] ::
      l[13] :: l[14] :: l[15] :: l.drop 16 := by
  simp only [List.getElem_cons_drop, List.drop_zero]

/-- `splitBlocks` answers the consecutive 16-byte blocks and what is left of the bytes. -/
theorem splitBlocks_eq (bs : List Byte) :
    splitBlocks bs = ((List.range (bs.length / 16)).map (blockAt bs), bs.drop (16 * (bs.length / 16))) := by
  fun_induction splitBlocks bs with
  | case1 b0 b1 b2 b3 b4 b5 b6 b7 b8 b9 b10 b11 b12 b13 b14 b15 rest r ih =>
    subst r
    have hq : (b0 :: b1 :: b2 :: b3 :: b4 :: b5 :: b6 :: b7 :: b8 :: b9 :: b10 :: b11 :: b12 :: b13 :: b14 :: b15 ::
        rest).length / 16 = rest.length / 16 + 1 := by simp only [List.length_cons]; omega
    have hb := blockAt_toList #v[b0, b1, b2, b3, b4, b5, b6, b7, b8, b9, b10, b11, b12, b13, b14, b15] rest
    have hd := blockAt_drop (b0 :: b1 :: b2 :: b3 :: b4 :: b5 :: b6 :: b7 :: b8 :: b9 :: b10 :: b11 :: b12 :: b13 ::
      b14 :: b15 :: rest)
    rw [ih, hq, List.range_succ_eq_map, Nat.mul_add]
    simp only [List.map_cons, List.map_map]
    refine Prod.ext (congrArg₂ List.cons hb.symm (List.map_congr_left fun i _ => hd i)) ?_
    rw [Nat.mul_one, Nat.add_comm, ← List.drop_drop]
    rfl
  | case2 short h =>
    have : short.length < 16 := by
      by_contra hl
      exact h _ _ _ _ _ _ _ _ _ _ _ _ _ _ _ _ _ (eq_cons16 short (by omega))
    simp [Nat.div_eq_of_lt this]

/-! ### Hashing the blocks of a byte sequence -/

theorem hashBlocks_congr {D E : List Byte} (st ck : Block) (q : Nat)
    (h : ∀ k < 16 * q, D.getD k 0 = E.getD k 0) : hashBlocks st ck D q = hashBlocks st ck E q := by
  induction q with
  | zero => rfl
  | succ q ih =>
    have hb : blockAt D q = blockAt E q := blockAt_congr fun k hk => h _ (by omega)
    simp only [hashBlocks, ih fun k hk => h k (by omega), hb]

/-- Hashing `q + 1` blocks is hashing the first and then the `q` behind it. -/
theorem hashBlocks_succ_left (st ck : Block) (D : List Byte) (q : Nat) :
    hashBlocks st ck D (q + 1) = hashBlocks (mix st (blockAt D 0)) (cks ck (blockAt D 0)) (D.drop 16) q := by
  induction q with
  | zero => rfl
  | succ q ih => rw [hashBlocks, ih, hashBlocks, blockAt_drop]

/-- Hashing `p + q` blocks is hashing `p` and then the `q` behind them. -/
theorem hashBlocks_add (st ck : Block) (D : List Byte) (p q : Nat) :
    hashBlocks st ck D (p + q) =
      hashBlocks (hashBlocks st ck D p).1 (hashBlocks st ck D p).2 (D.drop (16 * p)) q := by
  induction p generalizing st ck D with
  | zero => simp [hashBlocks]
  | succ p ih =>
    rw [show p + 1 + q = p + q + 1 by omega, hashBlocks_succ_left, ih, hashBlocks_succ_left, List.drop_drop,
      show 16 + 16 * p = 16 * (p + 1) by omega]

/-- COMPRESS on the whole blocks of `bs` hashes them in order. -/
theorem compressAll_splitBlocks (s : State) (bs : List Byte) :
    ((s.compressAll (splitBlocks bs).1).state, (s.compressAll (splitBlocks bs).1).checksum) =
      hashBlocks s.state s.checksum bs (bs.length / 16) := by
  rw [splitBlocks_eq]
  generalize bs.length / 16 = q
  induction q generalizing s bs with
  | zero => rfl
  | succ q ih =>
    rw [List.range_succ_eq_map, hashBlocks_succ_left]
    simp only [List.map_cons, List.map_map, State.compressAll_cons]
    have hd : List.map (blockAt bs ∘ Nat.succ) (List.range q) = List.map (blockAt (bs.drop 16)) (List.range q) :=
      List.map_congr_left fun i _ => (blockAt_drop bs i).symm
    rw [hd]
    exact ih (s.compress (blockAt bs 0)) (bs.drop 16)

end Sys2Proof.Machine
end

