-- ==== Sys2Proof/Laws/Stream.lean ====
section
/-! SUPPORT. The host's side: the bytes ahead of the next reset, and what the decoder makes of them. -/

namespace Sys2Proof

@[simp] theorem wf_update (p : List Byte) : (Instr.update p).wf = true ↔ p.length ≤ 4095 := by
  simp [Instr.wf, Config.maxPayload, Config.lenBits]

@[simp] theorem length_headerBytes (hdr : BitVec 16) : (headerBytes hdr).length = 2 := rfl

/-- A header word as a number (R51). -/
theorem toNat_headerWord (b0 b1 : Byte) : (headerWord b0 b1).toNat = b0.toNat * 256 + b1.toNat := by
  show (b0 ++ b1).toNat = _
  rw [BitVec.toNat_append, ← Nat.shiftLeft_add_eq_or_of_lt b1.isLt, Nat.shiftLeft_eq]

/-- The two bytes of a header read back as that header (R51). -/
@[simp] theorem headerWord_headerBytes (hdr : BitVec 16) :
    headerWord (hdr.extractLsb' 8 8) (hdr.extractLsb' 0 8) = hdr := by
  rw [headerWord, BitVec.extractLsb'_append_extractLsb'_eq_extractLsb' (by rfl)]
  exact BitVec.extractLsb'_eq_self

theorem length_encode (i : Instr) : (encode i).length = commandLength i := by simp [encode, commandLength]

theorem decode_nil : decode [] = .needHeader := rfl

theorem decode_single (b : Byte) : decode [b] = .needHeader := rfl

theorem decode_header (hdr : BitVec 16) (rest : List Byte) :
    decode (headerBytes hdr ++ rest) = (decodeHeader hdr).elim (.illegal hdr) (decodeBody · rest) := by
  simp only [headerBytes, List.cons_append, List.nil_append, decode, headerWord_headerBytes]
  cases decodeHeader hdr <;> rfl

end Sys2Proof

namespace Sys2Proof.Machine

/-- Stream bytes at the head of the input stand at the head of what the engine can decode. -/
@[simp] theorem streamBytes_append (bs : List Byte) (es : List HostEvent) :
    streamBytes (bs.map .byte ++ es) = bs ++ streamBytes es := by
  induction bs with
  | nil => rfl
  | cons b bs ih => simp [streamBytes, ih]

@[simp] theorem streamBytes_rst (es : List HostEvent) : streamBytes (.rst :: es) = [] := rfl

@[simp] theorem streamBytes_nil : streamBytes [] = [] := rfl

@[simp] theorem streamBytes_byte (b : Byte) (es : List HostEvent) : streamBytes (.byte b :: es) = b :: streamBytes es := rfl

@[simp] theorem behindReset_append (bs : List Byte) (es : List HostEvent) :
    behindReset (bs.map .byte ++ es) = behindReset es := by
  induction bs with
  | nil => rfl
  | cons b bs ih => simp [behindReset, ih]

/-- The input is the bytes the engine can decode, then nothing or a reset. -/
theorem input_eq (es : List HostEvent) :
    es = (streamBytes es).map .byte ++ (behindReset es).elim [] (HostEvent.rst :: ·) := by
  induction es with
  | nil => rfl
  | cons e es ih =>
    cases e with
    | byte b => simpa [streamBytes, behindReset] using ih
    | rst => rfl

/-- Every byte the engine can decode was presented. -/
theorem length_streamBytes_le (es : List HostEvent) : (streamBytes es).length ≤ es.length := by
  conv_rhs => rw [input_eq es]
  simp

theorem length_behindReset_lt {es rest : List HostEvent} (h : behindReset es = some rest) : rest.length < es.length := by
  rw [input_eq es, h]
  simp
  omega

end Sys2Proof.Machine
end

