-- ==== Sys2Proof/Laws/PerInstr.lean ====
section
/-! SUPPORT. Statements about each command as syntax, one lemma per constructor of `Instr`. -/

/-- The length of a command in stream bytes is 2, and `2 + len` for `UPDATE`, whose `len` is the low twelve bits of its
header when it is well-formed (R53, R56). -/
def Sys2Proof.Laws.CommandLength.Statement (i : Sys2Proof.Instr) : Prop :=
  i.wf = true → (Sys2Proof.encode i).length = 2 + (Sys2Proof.headerLen (Sys2Proof.encodeHeader i)).toNat

namespace Sys2Proof.Laws.CommandLength

theorem init : Statement .init := fun _ => rfl

theorem update (payload : List Byte) : Statement (.update payload) := by
  intro h
  have hl : payload.length ≤ 4095 := (wf_update payload).mp h
  rw [length_encode, commandLength, headerLen, encodeHeader, encodePayload, BitVec.extractLsb'_toNat, BitVec.toNat_or]
  have : (BitVec.ofNat 16 payload.length).toNat = payload.length := by simp; omega
  rw [this, Nat.shiftRight_zero, Nat.or_mod_two_pow]
  simp
  omega

theorem final : Statement .final := fun _ => rfl

theorem peek : Statement .peek := fun _ => rfl

end Sys2Proof.Laws.CommandLength
end

