-- ==== Sys2Proof/Laws/Step.lean ====
section
/-! SUPPORT. What a meaning and a step answer, case by case; later proofs cite these and do not unfold `exec` or
`step`. -/

namespace Sys2Proof.Machine

variable {s t : State} {i : Instr}

/-! ### Meanings, phase by phase -/

theorem admitLive_active (n : Nat) (run : State → State) (h : s.phase = .active) :
    s.admitLive n run = .next ((run s).consume n) := by simp [State.admitLive, h]

theorem admitLive_done (n : Nat) (run : State → State) (h : s.phase = .done) :
    s.admitLive n run = .next (s.raise .useAfterFinal) := by simp [State.admitLive, h]

theorem admitLive_fault (n : Nat) (run : State → State) (h : s.phase = .fault) :
    s.admitLive n run = .next (s.discard n) := by simp [State.admitLive, h]

theorem exec_init (h : s.phase ≠ .fault) : exec .init s = .next (s.fresh.consume 2) := by
  cases hp : s.phase <;> simp_all [exec, execInit, State.admitFresh]

theorem exec_update (bs : List Byte) (h : s.phase = .active) :
    exec (.update bs) s = .next ((s.absorb bs).consume (2 + bs.length)) :=
  admitLive_active (2 + bs.length) (fun s => s.absorb bs) h

theorem exec_final (h : s.phase = .active) : exec .final s = .next (s.deliver.consume 2) := admitLive_active _ _ h

theorem exec_peek (h : s.phase = .active) : exec .peek s = .next (s.exhibit.consume 2) := admitLive_active _ _ h

/-- In `FAULT` every command is thrown away whole (R125). -/
theorem exec_fault (i : Instr) (h : s.phase = .fault) : exec i s = .next (s.discard (commandLength i)) := by
  cases i <;> simp [exec, execInit, execUpdate, execFinal, execPeek, State.admitFresh, State.admitLive, h, commandLength,
    encodePayload]

/-! ### What UPDATE does to each register -/

/-- Steps 1 to 3: the payload fits the buffer. -/
theorem absorb_of_lt (bs : List Byte) (h : s.count.toNat + bs.length < 16) :
    s.absorb bs =
      { s with buffer := writeBytes s.buffer s.count.toNat bs, count := BitVec.ofNat 4 (s.count.toNat + bs.length) } := by
  have ha : available bs.length s.count = bs.length := by simp [available]; omega
  simp [State.absorb, ha, h, State.fill]

/-- Steps 4 to 6: the payload fills the buffer. -/
theorem absorb_of_le (bs : List Byte) (h : 16 ≤ s.count.toNat + bs.length) :
    s.absorb bs =
      let full := s.fill bs
      let cut := splitBlocks (bs.drop (16 - s.count.toNat))
      ((full.compress full.buffer).compressAll cut.1).store cut.2 := by
  have ha : available bs.length s.count = 16 - s.count.toNat := by simp [available]; omega
  have hc := s.count.isLt
  have : ¬ s.count.toNat + (16 - s.count.toNat) < 16 := by omega
  simp [State.absorb, ha, this]

@[simp] theorem absorb_phase (bs : List Byte) : (s.absorb bs).phase = s.phase := by
  simp only [State.absorb]; split <;> simp

@[simp] theorem absorb_cause (bs : List Byte) : (s.absorb bs).cause = s.cause := by
  simp only [State.absorb]; split <;> simp

@[simp] theorem absorb_dout (bs : List Byte) : (s.absorb bs).dout = s.dout := by
  simp only [State.absorb]; split <;> simp

@[simp] theorem absorb_dvalid (bs : List Byte) : (s.absorb bs).dvalid = s.dvalid := by
  simp only [State.absorb]; split <;> simp

@[simp] theorem absorb_cpos (bs : List Byte) : (s.absorb bs).cpos = s.cpos := by
  simp only [State.absorb]; split <;> simp

@[simp] theorem absorb_input (bs : List Byte) : (s.absorb bs).input = s.input := by
  simp only [State.absorb]; split <;> simp

/-! ### Everything a meaning can do -/

/-- A meaning always answers a next state: the command ran, or raised `UseAfterFinal`, or was thrown away. -/
theorem exec_cases (i : Instr) (s : State) :
    (∃ t, exec i s = .next t ∧ (s.phase = .active ∨ (s.phase = .done ∧ i = .init)) ∧ t.phase ≠ .fault ∧ t.cause = s.cause ∧
      t.cpos = s.cpos + commandLength i ∧ t.input = s.input.drop (commandLength i)) ∨
    (exec i s = .next (s.raise .useAfterFinal) ∧ s.phase = .done ∧ i ≠ .init) ∨
    (exec i s = .next (s.discard (commandLength i)) ∧ s.phase = .fault) := by
  cases hp : s.phase with
  | active =>
    refine .inl ?_
    cases i with
    | init => exact ⟨_, exec_init (by simp [hp]), by simp [commandLength, encodePayload]⟩
    | update p => exact ⟨_, exec_update p hp, by simp [commandLength, encodePayload, hp]⟩
    | final => exact ⟨_, exec_final hp, by simp [commandLength, encodePayload]⟩
    | peek => exact ⟨_, exec_peek hp, by simp [commandLength, encodePayload, hp]⟩
  | done =>
    cases i with
    | init => exact .inl ⟨_, exec_init (by simp [hp]), by simp [commandLength, encodePayload]⟩
    | update p => exact .inr (.inl ⟨by simp [exec, execUpdate, State.admitLive, hp], rfl, by simp⟩)
    | final => exact .inr (.inl ⟨by simp [exec, execFinal, State.admitLive, hp], rfl, by simp⟩)
    | peek => exact .inr (.inl ⟨by simp [exec, execPeek, State.admitLive, hp], rfl, by simp⟩)
  | fault => exact .inr (.inr ⟨exec_fault i hp, rfl⟩)

/-! ### Lists of commands -/

theorem execAll_cons {is : List Instr} (h : exec i s = .next t) : execAll (i :: is) s = execAll is t := by
  simp [execAll, h]

theorem execAll_append {is js : List Instr} (h : execAll is s = .next t) : execAll (is ++ js) s = execAll js t := by
  induction is generalizing s with
  | nil => cases h; rfl
  | cons i is ih =>
    rcases exec_cases i s with ⟨u, hu, -⟩ | ⟨hu, -⟩ | ⟨hu, -⟩ <;>
      exact (execAll_cons hu).trans (ih ((execAll_cons hu).symm.trans h))

/-! ### The step, case by case -/

theorem step_command {rest : List Byte} (hp : s.phase ≠ .fault) (h : decode (streamBytes s.input) = .command i rest) :
    step s = exec i s := by
  cases hq : s.phase <;> simp_all [step, State.fetch]

theorem step_illegal {hdr : BitVec 16} (hp : s.phase ≠ .fault) (h : decode (streamBytes s.input) = .illegal hdr) :
    step s = .next (s.raise .illegalCommand) := by
  cases hq : s.phase <;> simp_all [step, State.fetch]

theorem step_needHeader (hp : s.phase ≠ .fault) (h : decode (streamBytes s.input) = .needHeader) : step s = s.await := by
  cases hq : s.phase <;> simp_all [step, State.fetch]

theorem step_needPayload {n : Nat} (hp : s.phase ≠ .fault) (h : decode (streamBytes s.input) = .needPayload n) :
    step s = s.await := by
  cases hq : s.phase <;> simp_all [step, State.fetch, State.awaitPayload]

theorem step_fault_byte {b : Byte} {rest : List HostEvent} (hp : s.phase = .fault) (h : s.input = .byte b :: rest) :
    step s = .next { s with input := rest } := by
  simp [step, hp, State.stepInFault, h, State.discard]

theorem step_rst {rest : List HostEvent} (h : s.input = .rst :: rest) : step s = .next (State.afterReset rest) := by
  cases hp : s.phase <;> simp [step, hp, State.stepInFault, h, State.fetch, decode, State.await, behindReset]

theorem await_next (h : s.await = .next t) : ∃ rest, behindReset s.input = some rest ∧ t = State.afterReset rest := by
  unfold State.await at h
  split at h
  · cases h; exact ⟨_, ‹_›, rfl⟩
  · cases h

/-- Everything a step that answers a next state can have done. -/
theorem step_cases (h : step s = .next t) :
    (∃ i rest, s.phase ≠ .fault ∧ decode (streamBytes s.input) = .command i rest ∧ exec i s = .next t) ∨
    (∃ hdr, s.phase ≠ .fault ∧ decode (streamBytes s.input) = .illegal hdr ∧ t = s.raise .illegalCommand) ∨
    (∃ b rest, s.phase = .fault ∧ s.input = .byte b :: rest ∧ t = { s with input := rest }) ∨
    (∃ rest, behindReset s.input = some rest ∧ t = State.afterReset rest) := by
  by_cases hp : s.phase = .fault
  · match hi : s.input with
    | .byte b :: rest =>
      rw [step_fault_byte hp hi] at h; cases h
      exact .inr (.inr (.inl ⟨b, rest, hp, rfl, rfl⟩))
    | .rst :: rest =>
      rw [step_rst hi] at h; cases h
      exact .inr (.inr (.inr ⟨rest, rfl, rfl⟩))
    | [] => simp [step, hp, State.stepInFault, hi] at h
  · cases hd : decode (streamBytes s.input) with
    | command i rest => rw [step_command hp hd] at h; exact .inl ⟨i, rest, hp, rfl, h⟩
    | illegal hdr => rw [step_illegal hp hd] at h; cases h; exact .inr (.inl ⟨hdr, hp, rfl, rfl⟩)
    | needHeader => rw [step_needHeader hp hd] at h; exact .inr (.inr (.inr (await_next h)))
    | needPayload n => rw [step_needPayload hp hd] at h; exact .inr (.inr (.inr (await_next h)))

end Sys2Proof.Machine
end

