-- ==== Sys2Proof/Tests/Slice0.lean ====
section
/-! SUPPORT. Tests with expected values taken from the spec (95_test_vectors.md, 96_more_programs.md, the worked examples
of the rules), and a witness for the hypotheses of each statement. -/

namespace Sys2Proof.Tests

open Sys2Proof Sys2Proof.Machine

/-! ### Well-formedness: the one check, on the bound and one past it (R56) -/

theorem test_wf_longest_payload : (Instr.update (List.replicate 4095 0)).wf = true := by decide +kernel

theorem test_wf_refuses_longer_payload : (Instr.update (List.replicate 4096 0)).wf = false := by decide +kernel

/-! ### Words written out from R51, R54 and R63, one for every constructor, and illegal ones -/

/-- `0001` `000000000000`, R54. -/
theorem test_decode_init : decode [0b00010000, 0b00000000] = .command .init [] := by decide

/-- `0010` `000000000011` and three bytes `abc`, R63. -/
theorem test_decode_update :
    decode [0b00100000, 0b00000011, 0x61, 0x62, 0x63, 0x30] = .command (.update [0x61, 0x62, 0x63]) [0x30] := by decide

/-- The high bits of `len` are the low nibble of the first byte: `21 2c` asks for 300 bytes, R63. -/
theorem test_decode_update_len_300 : decode [0x21, 0x2c, 0x00] = .needPayload 300 := by decide

/-- `0011` `000000000000`, R54. -/
theorem test_decode_final : decode [0b00110000, 0b00000000] = .command .final [] := by decide

/-- `0100` `000000000000`, R54. -/
theorem test_decode_peek : decode [0b01000000, 0b00000000] = .command .peek [] := by decide

/-- Section 2.7 of the vectors: illegal headers. -/
theorem test_decode_illegal :
    [decode [0x00, 0x00], decode [0x0f, 0xff], decode [0x10, 0x01], decode [0x1f, 0xff], decode [0x30, 0x01],
      decode [0x40, 0x01], decode [0x50, 0x00], decode [0x80, 0x00], decode [0xff, 0xff]] =
    [.illegal 0x0000, .illegal 0x0fff, .illegal 0x1001, .illegal 0x1fff, .illegal 0x3001, .illegal 0x4001,
      .illegal 0x5000, .illegal 0x8000, .illegal 0xffff] := by decide

/-- R63: the nine bytes of `INIT; UPDATE "abc"; FINAL`. -/
theorem test_encode_abc :
    [Instr.init, .update [0x61, 0x62, 0x63], .final].flatMap encode =
      [0x10, 0x00, 0x20, 0x03, 0x61, 0x62, 0x63, 0x30, 0x00] := by decide

theorem test_table_words :
    [decodeTableWord 16 0x1000, decodeTableWord 16 0x2002, decodeTableWord 16 0x3000, decodeTableWord 16 0x4000,
      decodeTableWord 16 0x3001] =
    [some .init, some (.update [0, 0]), some .final, some .peek, none] := by decide

/-! ### The table and the internal operations -/

/-- Section 2.1: spot reads of `S`. -/
theorem test_sbox :
    [S 0x00, S 0x0f, S 0x10, S 0x29, S 0x7f, S 0x80, S 0xdd, S 0xfe, S 0xff] =
      [0x29, 0x13, 0x62, 0x42, 0xf1, 0x45, 0x00, 0x83, 0x14] := by decide +kernel

/-- R72: the running index after round 0 of `MIX(0, 0x10 x 16)`. -/
theorem test_round_zero :
    (mixRound 0 { x := loadX zeroBlock (Vector.replicate 16 0x10), t := 0 }).t = 0xa5 := by decide +kernel

/-- R73: `MIX(000102..0f, 101112..1f)`. -/
theorem test_mix :
    mix #v[0x00, 0x01, 0x02, 0x03, 0x04, 0x05, 0x06, 0x07, 0x08, 0x09, 0x0a, 0x0b, 0x0c, 0x0d, 0x0e, 0x0f]
      #v[0x10, 0x11, 0x12, 0x13, 0x14, 0x15, 0x16, 0x17, 0x18, 0x19, 0x1a, 0x1b, 0x1c, 0x1d, 0x1e, 0x1f] =
    #v[0x28, 0x2b, 0x65, 0xd9, 0xcd, 0xa4, 0x57, 0xda, 0x2d, 0x16, 0xc6, 0x6e, 0x71, 0xee, 0x16, 0x0c] := by
  decide +kernel

/-- R74: `CKS(ff x 16, ff x 16)`, where the old checksum and its carried byte 15 both show. -/
theorem test_cks :
    cks (Vector.replicate 16 0xff) (Vector.replicate 16 0xff) =
      #v[0xd6, 0xbd, 0x86, 0x03, 0x60, 0xf0, 0xec, 0x0c, 0x4b, 0x7a, 0x8e, 0x47, 0x2c, 0x74, 0x9a, 0x5a] := by
  decide +kernel

/-! ### States for the tests -/

/-- A state in phase `p` with these bytes presented. -/
def given (p : Phase) (bytes : List Byte) : State := { State.reset with phase := p, input := bytes.map .byte }

/-- A live instance that has absorbed `abc` (R91's example). -/
def holdingAbc : State :=
  { State.reset with buffer := #v[0x61, 0x62, 0x63, 0, 0, 0, 0, 0, 0, 0, 0, 0, 0, 0, 0, 0], count := 3 }

/-- The next state of an outcome, and `d` where there is none. -/
def nextOr (d : State) : Host.Outcome State Fault Refusal → State
  | .next t => t
  | .fault _ => d
  | .refused _ => d

/-- `step` takes no step. -/
def waits (s : State) : Bool :=
  match step s with
  | .refused .awaitingHost => true
  | _ => false

/-! ### The commands, one step each -/

/-- Section 2.4: `INIT` in `DONE` clears the digest output and `STATUS`. -/
theorem test_init_in_done :
    let t := nextOr State.reset (step { given .done [0x10, 0x00] with dout := Vector.replicate 16 7, dvalid := true, count := 9 })
    (t.status, t.dout, t.count, t.cpos, t.input) = (0x00, zeroBlock, 0, 2, []) := by decide +kernel

/-- P1: `UPDATE "abc"` after reset; the position moves past header and payload. -/
theorem test_update_abc :
    nextOr State.reset (step (given .active [0x20, 0x03, 0x61, 0x62, 0x63])) = { holdingAbc with cpos := 5 } := by
  decide +kernel

/-- Section 2.5, row 17: sixteen bytes go through COMPRESS, one stays, and the stale bytes are those of the first block. -/
theorem test_update_seventeen_bytes :
    let t := nextOr State.reset (execUpdate ((List.range 17).map (BitVec.ofNat 8)) State.reset)
    (t.checksum, t.buffer, t.count) =
      (#v[0x29, 0x67, 0xa5, 0xaf, 0xce, 0x08, 0x06, 0x2e, 0xe0, 0x77, 0x74, 0xf1, 0x11, 0xbc, 0x0d, 0x43],
        #v[0x10, 0x01, 0x02, 0x03, 0x04, 0x05, 0x06, 0x07, 0x08, 0x09, 0x0a, 0x0b, 0x0c, 0x0d, 0x0e, 0x0f], 1) := by
  decide +kernel

/-- K1 and R108: `FINAL` of the empty message, its digest and the checksum it leaves. -/
theorem test_final_empty :
    let t := nextOr State.reset (step (State.reset.withFetchWord 16 0x3000))
    (t.dout, t.checksum, t.status) =
      (#v[0x83, 0x50, 0xe5, 0xa3, 0xe2, 0x4c, 0x15, 0x3d, 0xf2, 0x27, 0x5c, 0x9f, 0x80, 0x69, 0x27, 0x73],
        #v[0x68, 0xb8, 0x5e, 0x10, 0xfd, 0x74, 0x89, 0x33, 0xf3, 0xb4, 0xc3, 0xcd, 0x55, 0x46, 0x50, 0x8d], 0x05) := by
  decide +kernel

/-- K3 and R108: `FINAL` of `abc`; the padded block stays in `buffer` and `count` is not written. -/
theorem test_final_abc :
    let t := nextOr State.reset (execFinal holdingAbc)
    (t.dout, t.buffer, t.count) =
      (#v[0xda, 0x85, 0x3b, 0x0d, 0x3f, 0x88, 0xd9, 0x9b, 0x30, 0x28, 0x3a, 0x69, 0xe6, 0xde, 0xd6, 0xbb],
        #v[0x61, 0x62, 0x63, 13, 13, 13, 13, 13, 13, 13, 13, 13, 13, 13, 13, 13], 3) := by
  decide +kernel

/-- P2: `PEEK` of `message `; the padding does not show in the live `buffer`. -/
theorem test_peek_message :
    let b : Block := #v[0x6d, 0x65, 0x73, 0x73, 0x61, 0x67, 0x65, 0x20, 0, 0, 0, 0, 0, 0, 0, 0]
    let t := nextOr State.reset (execPeek { State.reset with buffer := b, count := 8 })
    (t.dout, t.buffer, t.state, t.status) =
      (#v[0x89, 0x51, 0xeb, 0xbd, 0xb3, 0x20, 0x2c, 0x26, 0x36, 0x57, 0x32, 0xf0, 0xf6, 0x12, 0xd0, 0x83], b, zeroBlock,
        0x04) := by
  decide +kernel

/-! ### Faults, waiting, reset -/

/-- P5: `30 01` faults with code 1 and `STATUS` 0x12, and its bytes are still there to be thrown away. -/
theorem test_illegal_header :
    let t := nextOr State.reset (step (given .active [0x30, 0x01]))
    (t.status, t.cpos, t.input.length) = (0x12, 0, 2) := by decide +kernel

/-- P4: `UPDATE` in `DONE` faults with code 2, the digest stays, no byte is taken. -/
theorem test_use_after_final :
    let t := nextOr State.reset (step { given .done [0x20, 0x01, 0x61] with dvalid := true, cpos := 4 })
    (t.status, t.cpos, t.input.length) = (0x26, 4, 3) := by decide +kernel

/-- R123: an illegal header in `DONE` is `IllegalCommand`. -/
theorem test_illegal_header_in_done :
    (nextOr State.reset (step { given .done [0x40, 0x01] with dvalid := true })).status = 0x16 := by decide +kernel

/-- R58: in `DONE` too an `UPDATE` short of payload does not fault, nor does a lone header byte. -/
theorem test_incomplete_waits_in_done :
    [waits (given .done [0x20]), waits (given .done [0x20, 0x05]), waits (given .done [0x20, 0x02, 0x61]),
      waits (given .done [0x20, 0x02, 0x61, 0x62])] = [true, true, true, false] := by decide +kernel

/-- R125: `INIT` does not leave `FAULT`; a byte is thrown away. -/
theorem test_fault_discards :
    nextOr State.reset (step { given .fault [0x10, 0x00] with cause := .illegalCommand }) =
      { given .fault [0x00] with cause := .illegalCommand } := by decide +kernel

/-- R58: no step on a lone header byte or a payload cut short. -/
theorem test_incomplete_waits :
    [waits State.reset, waits (given .active [0x20]), waits (given .active [0x20, 0x03, 0x61, 0x62]),
      waits (given .active [0x20, 0x02, 0x61, 0x62]), waits (given .fault [])] =
    [true, true, true, false, true] := by decide +kernel

/-- Section 2.9: the cut-short `UPDATE` is abandoned and the stream starts anew behind the reset. -/
theorem test_reset_abandons :
    nextOr State.reset (step { State.reset with
      cpos := 7, input := [.byte 0x20, .byte 0x03, .byte 0x61, .byte 0x62, .rst, .byte 0x20, .byte 0x01, .byte 0x61] }) =
      { State.reset with input := [.byte 0x20, .byte 0x01, .byte 0x61] } := by decide +kernel

/-! ### Outputs and the host side -/

/-- R42: the empty message's digest on the port. -/
theorem test_digest_port :
    { State.reset with
      dout := #v[0x83, 0x50, 0xe5, 0xa3, 0xe2, 0x4c, 0x15, 0x3d, 0xf2, 0x27, 0x5c, 0x9f, 0x80, 0x69, 0x27, 0x73] }.doutPort =
      0x732769809f5c27f23d154ce2a3e55083 := by decide +kernel

/-- R111: leading zeros kept, lower case, high nibble first (section 2.6). -/
theorem test_hex :
    (hexChars #v[0x00, 0x0a, 0xb0, 0xff, 0, 0, 0, 0, 0, 0, 0, 0, 0, 0, 0, 0]).take 8 =
      ['0', '0', '0', 'a', 'b', '0', 'f', 'f'] := by decide +kernel

/-- R61 and R63: the text of P1, with a comment. -/
theorem test_assemble :
    assemble ["INIT".toList, "UPDATE \"abc\" ; text".toList, "FINAL".toList, "; end".toList] =
      some [0x10, 0x00, 0x20, 0x03, 0x61, 0x62, 0x63, 0x30, 0x00] := by decide +kernel

/-- R62: `WITH_INPUT` of 4096 bytes is `INIT` and two `UPDATE`s, of 4095 bytes and of one. -/
theorem test_expand_with_input :
    (expandLine (.withInput (List.replicate 4096 0))).map commandLength = [2, 4097, 3] := by decide +kernel

/-! ### Witnesses: each statement's hypotheses are met -/

theorem witness_IllegalHeadersAreTheFiveRangesAndFault :
    (given .done [0x30, 0x01, 0x55]).phase ≠ .fault ∧
      (given .done [0x30, 0x01, 0x55]).input = .byte 0x30 :: .byte 0x01 :: [.byte 0x55] ∧
      decodeHeader (headerWord 0x30 0x01) = none := by decide

theorem witness_DecodeOfEncodeIsTheCommand : (Instr.update [0x61]).wf = true := by decide

theorem witness_OnlyTheEncodingDecodesToACommand : decode [0x20, 0x01, 0x61, 0x30] = .command (.update [0x61]) [0x30] := by
  decide

theorem witness_GrowingStreamKeepsWhatIsDecoded :
    decode [0x20, 0x01, 0x61] = .command (.update [0x61]) [] ∧ decode [0x50, 0x00] = .illegal 0x5000 := by decide

theorem witness_StepRunsTheDecodedCommand :
    (given .done [0x10, 0x00]).phase ≠ .fault ∧
      decode (streamBytes (given .done [0x10, 0x00]).input) = .command .init [] := by decide

theorem witness_StepRunsThePresentedCommand :
    Instr.peek.wf = true ∧ (given .active [0x40, 0x00]).phase ≠ .fault ∧
      (given .active [0x40, 0x00]).input = (encode .peek).map .byte ++ [] := by decide

/-- The clauses one by one: `FAULT`, an illegal header, `INIT` in `DONE`, `FINAL` in `DONE`, and `FINAL` in
`ACTIVE`. -/
theorem witness_AdmissionOrder :
    (given .fault [0x10]).input = .byte 0x10 :: [] ∧
      decode (streamBytes (given .done [0x00, 0x00]).input) = .illegal 0x0000 ∧
      decode (streamBytes (given .done [0x10, 0x00]).input) = .command .init [] ∧
      decode (streamBytes (given .done [0x30, 0x00]).input) = .command .final [] ∧
      decode (streamBytes (given .active [0x30, 0x00]).input) = .command .final [] := by decide

theorem witness_UpdateInDoneFaultsOncePresented :
    (Instr.update [0x61]).wf = true ∧ (given .done [0x20, 0x01]).phase = .done ∧
      encode (.update [0x61]) = [0x20, 0x01] ++ [0x61] ∧ ([0x61] : List Byte) ≠ [] ∧
      (given .done [0x20, 0x01]).input = [0x20, 0x01].map .byte := by decide

theorem witness_FaultEntryWritesOnlyCauseAndPhase :
    ∃ t, (given .active [0x00, 0x00]).phase ≠ .fault ∧ step (given .active [0x00, 0x00]) = .next t ∧ t.phase = .fault :=
  ⟨_, by decide, rfl, rfl⟩

theorem witness_FaultPhaseDiscardsEveryByte :
    (given .fault [0x10, 0x00]).phase = .fault ∧ (given .fault [0x10, 0x00]).input = [0x10, 0x00].map .byte ++ [] ∧
      ∃ t, step { given .fault [] with input := [.rst] } = .next t ∧ t.phase ≠ .fault :=
  ⟨by decide, by decide, _, rfl, by decide⟩

theorem witness_ResetEventClearsEveryRegister :
    ({ given .fault [] with input := [HostEvent.rst, .byte 0x10] } : State).input = HostEvent.rst :: [.byte 0x10] := rfl

theorem witness_ResetAbandonsAPartialCommand :
    decode [0x20, 0x03, 0x61] = .needPayload 3 ∧ decode [0x30] = .needHeader ∧
      ({ given .active [] with input := [0x20, 0x03, 0x61].map HostEvent.byte ++ [HostEvent.rst] } : State).phase ≠
        .fault ∧
      ({ given .done [] with input := [0x20, 0x03, 0x61].map HostEvent.byte ++ [HostEvent.rst] } : State).phase ≠ .fault ∧
      ({ given .done [] with input := [0x30].map HostEvent.byte ++ [HostEvent.rst] } : State).phase ≠ .fault := by decide

/-- Both sides of each equivalence at the boundary: one payload byte short and none short, in `ACTIVE` and in `DONE`, and
nothing or one byte in `FAULT`; and a state with a reset presented. -/
theorem witness_IncompleteCommandTakesNoStep :
    (given .active [0x20, 0x02, 0x61]).phase ≠ .fault ∧ behindReset (given .active [0x20, 0x02, 0x61]).input = none ∧
      waits (given .active [0x20, 0x02, 0x61]) = true ∧ waits (given .active [0x20, 0x02, 0x61, 0x62]) = false ∧
      waits (given .done [0x20, 0x02, 0x61]) = true ∧ waits (given .done [0x20, 0x02, 0x61, 0x62]) = false ∧
      waits (given .fault []) = true ∧ waits (given .fault [0x10]) = false ∧
      behindReset [.byte 0x30, .rst, .byte 0x10] = some [.byte 0x10] := by
  decide +kernel

theorem witness_WaitingCommandRunsOncePresented :
    (Instr.update [0x61, 0x62]).wf = true ∧ (given .active [0x20, 0x02, 0x61]).phase ≠ .fault ∧
      encode (.update [0x61, 0x62]) = [0x20, 0x02, 0x61] ++ [0x62] ∧ ([0x62] : List Byte) ≠ [] ∧
      (given .active [0x20, 0x02, 0x61]).input = [0x20, 0x02, 0x61].map .byte := by decide

/-- A command that runs, a fault entry, a byte thrown away, a reset. -/
theorem witness_EveryStepIsACommandAFaultADiscardOrAReset :
    (∃ t, step (given .active [0x10, 0x00]) = .next t) ∧ (∃ t, step (given .done [0x30, 0x00]) = .next t) ∧
      (∃ t, step (given .fault [0x10]) = .next t) ∧ ∃ t, step { State.reset with input := [.rst] } = .next t :=
  ⟨⟨_, rfl⟩, ⟨_, rfl⟩, ⟨_, rfl⟩, ⟨_, rfl⟩⟩

theorem witness_EveryStepTakesInputOrEntersFault : ∃ t, step (given .done [0x30, 0x00]) = .next t := ⟨_, rfl⟩

/-- By an `INIT`, and by a reset. -/
theorem witness_OnlyInitOrResetRevivesDone :
    (∃ t, (given .done [0x10, 0x00]).phase = .done ∧ step (given .done [0x10, 0x00]) = .next t ∧ t.phase = .active) ∧
      ∃ t, step { given .done [] with input := [.byte 0x30, .rst] } = .next t ∧ t.phase = .active :=
  ⟨⟨_, rfl, rfl, rfl⟩, _, rfl, rfl⟩

/-- By a `PEEK`, and by a reset. -/
theorem witness_OnlyInitFinalPeekResetWriteTheDigestOutput :
    (∃ t, step (given .active [0x40, 0x00]) = .next t ∧ t.dvalid ≠ (given .active [0x40, 0x00]).dvalid) ∧
      ∃ t, step { given .done [] with dvalid := true, input := [.rst] } = .next t ∧ t.dvalid ≠ true :=
  ⟨⟨_, rfl, by decide⟩, _, rfl, by decide⟩

theorem inv_given_active (bytes : List Byte) : (given .active bytes).Inv :=
  ⟨by simp [given], by simp [given], by simp [given], by simp [given]⟩

theorem witness_EveryStepKeepsTheInvariant :
    ∃ t, (given .active [0x40, 0x00]).Inv ∧ step (given .active [0x40, 0x00]) = .next t :=
  ⟨_, inv_given_active _, rfl⟩

theorem witness_StatusWordFieldsAndValues : (given .active []).Inv := inv_given_active _

theorem witness_MixIsEighteenRounds :
    ∃ W : Nat → Scratch, W 0 = { x := loadX zeroBlock zeroBlock, t := 0 } ∧ ∀ j < 18, W (j + 1) = mixRound j (W j) :=
  ⟨fun n => mixRounds n { x := loadX zeroBlock zeroBlock, t := 0 }, rfl, fun j _ => by simp [mixRounds, List.range_succ]⟩

theorem witness_InitStartsAFreshInstance : (given .done []).phase ≠ .fault ∧ (given .active []).phase ≠ .fault := by decide

/-- `ACTIVE`, with payloads on both sides of the buffer's end: 3 + 12 bytes and 3 + 13 bytes. -/
theorem witness_UpdateClosedForm :
    holdingAbc.phase = .active ∧ (holdingAbc.count.toNat + (List.replicate 12 (0 : Byte)).length) / 16 = 0 ∧
      (holdingAbc.count.toNat + (List.replicate 13 (0 : Byte)).length) / 16 = 1 := by decide

theorem witness_EmptyUpdateIsTheNoOperation : holdingAbc.phase = .active := rfl

/-- The padded block at the two ends of `count`: 0 and 15. -/
theorem witness_FinalDeliversTheDigest :
    (∃ P : Block, State.reset.phase = .active ∧ ∀ k : Fin 16, P[k] =
      if k.val < State.reset.count.toNat then State.reset.buffer[k] else BitVec.ofNat 8 (16 - State.reset.count.toNat)) ∧
    ∃ P : Block, ∀ k : Fin 16, P[k] =
      if k.val < (15 : BitVec 4).toNat then zeroBlock[k] else BitVec.ofNat 8 (16 - (15 : BitVec 4).toNat) :=
  ⟨⟨Vector.replicate 16 0x10, rfl, by decide +kernel⟩,
    #v[0, 0, 0, 0, 0, 0, 0, 0, 0, 0, 0, 0, 0, 0, 0, 1], by decide +kernel⟩

theorem witness_PeekWritesOnlyTheDigestOutput :
    ∃ P : Block, holdingAbc.phase = .active ∧ ∀ k : Fin 16, P[k] =
      if k.val < holdingAbc.count.toNat then holdingAbc.buffer[k] else BitVec.ofNat 8 (16 - holdingAbc.count.toNat) :=
  ⟨#v[0x61, 0x62, 0x63, 13, 13, 13, 13, 13, 13, 13, 13, 13, 13, 13, 13, 13], rfl, by decide +kernel⟩

theorem witness_PeekDoesNotDisturbTheDigest : holdingAbc.phase = .active := rfl

theorem witness_CommandsAfterFinalRaiseUseAfterFinal :
    (given .done []).phase = .done ∧ Instr.final ≠ .init ∧ Instr.update [] ≠ .init := by decide

theorem witness_CommandsInFaultAreThrownAway : (given .fault []).phase = .fault := rfl

/-- Each command runs in `ACTIVE`. -/
theorem witness_CommandFrames :
    holdingAbc.phase = .active ∧ (∃ t, exec .init holdingAbc = .next t) ∧ (∃ t, exec (.update [1]) holdingAbc = .next t) ∧
      (∃ t, exec .final holdingAbc = .next t) ∧ ∃ t, exec .peek holdingAbc = .next t :=
  ⟨rfl, ⟨_, rfl⟩, ⟨_, rfl⟩, ⟨_, rfl⟩, ⟨_, rfl⟩⟩

theorem witness_ChunkingInvariance : holdingAbc.phase = .active := rfl

theorem witness_ByteSerialUpdateIsEquivalent : holdingAbc.phase = .active := rfl

theorem witness_InstanceHoldsItsMessage :
    (given .done []).phase ≠ .fault ∧ State.reset.Absorbed [] ∧ holdingAbc.Absorbed [0x61, 0x62, 0x63] :=
  ⟨by decide, ⟨rfl, by simp [State.reset, hashBlocks], by decide, by decide⟩,
    ⟨rfl, by simp [holdingAbc, State.reset, hashBlocks], by decide, by decide⟩⟩

theorem streaming_example : ∀ i ∈ [Instr.update [0x61], .peek, .update [0x62, 0x63]], Streaming i ∧ i.wf = true := by
  intro i hi
  simp only [List.mem_cons, List.not_mem_nil, or_false] at hi
  rcases hi with rfl | rfl | rfl
  · exact ⟨.inr ⟨_, rfl⟩, by decide⟩
  · exact ⟨.inl rfl, by decide⟩
  · exact ⟨.inr ⟨_, rfl⟩, by decide⟩

theorem witness_CommandSequenceDeliversTheDigest :
    (∀ i ∈ [Instr.update [0x61], .peek, .update [0x62, 0x63]], Streaming i) ∧ holdingAbc.phase ≠ .fault ∧
      ∃ r, step { given .fault [] with input := [.rst] } = .next r :=
  ⟨fun i hi => (streaming_example i hi).1, by decide, _, rfl⟩

theorem witness_PresentedStreamDeliversTheDigest :
    ∃ s : State, s.phase ≠ .fault ∧
      (∀ i ∈ [Instr.update [0x61], .peek, .update [0x62, 0x63]], Streaming i ∧ i.wf = true) ∧
      s.input = presented (.init :: [Instr.update [0x61], .peek, .update [0x62, 0x63]] ++ [.final]) ++ [.rst] :=
  ⟨{ State.reset with input := presented (.init :: [.update [0x61], .peek, .update [0x62, 0x63]] ++ [.final]) ++ [.rst] },
    by decide, streaming_example, rfl⟩

/-- Two states that differ in a stale byte, and two in `DONE` that differ in `state`. -/
theorem witness_StaleBytesNeverReachAnOutput :
    holdingAbc.Alike { holdingAbc with buffer := #v[0x61, 0x62, 0x63, 9, 0, 0, 0, 0, 0, 0, 0, 0, 0, 0, 0, 0] } ∧
      (given .done []).Alike { given .done [] with state := Vector.replicate 16 1 } :=
  ⟨⟨⟨rfl, rfl, rfl, rfl, rfl, rfl⟩, fun _ => ⟨rfl, rfl, rfl, rfl⟩⟩,
    ⟨⟨rfl, rfl, rfl, rfl, rfl, rfl⟩, fun h => by simp [given] at h⟩⟩

theorem witness_InitForgetsTheEarlierInstance :
    holdingAbc.phase ≠ .fault ∧ (given .done []).phase ≠ .fault ∧ holdingAbc.cause = (given .done []).cause ∧
      holdingAbc.cpos = (given .done []).cpos ∧ holdingAbc.input = (given .done []).input := by decide

theorem witness_UpdateStarExpansion : holdingAbc.phase = .active := rfl

theorem witness_DigestPseudoCommand : holdingAbc.phase ≠ .fault := by decide

/-- Printable text at both ends of the range, a blank and a tilde. -/
theorem witness_OperandTextAssembles : ∀ c ∈ [' ', ';', '~'], 0x20 ≤ c.toNat ∧ c.toNat ≤ 0x7e ∧ c ≠ '"' := by simp

end Sys2Proof.Tests
end

section
/-!
The reset event (R25): every register at its reset value, in every phase.
-/
namespace Sys2Proof.Machine

@[simp] theorem zeroBlock_getElem (k : Nat) (hk : k < 16) : zeroBlock[k] = 0 := by
  simp [zeroBlock]

@[simp] theorem State.afterReset_status (rest : List HostEvent) : (State.afterReset rest).status = 0x00 := by
  simp [State.status, Phase.code, Cause.code]

/-- Settles O13: by `step_rst` the step answers `State.afterReset rest`, whose registers are those of `State.reset`. -/
theorem resetEventClearsEveryRegister : Obligations.ResetEventClearsEveryRegister := by
  intro s rest hrst
  refine ⟨State.afterReset rest, step_rst hrst, fun k => ?bytes, ?registers⟩
  case bytes => simp
  case registers => simp

end Sys2Proof.Machine
end

section
/-!
The digest port (R42): byte lane `i` of the number that `bytesToNat` builds is the byte at position `i`.
-/
namespace Sys2Proof.Machine

theorem bytesToNat_lt (bs : List Byte) : bytesToNat bs < 256 ^ bs.length := by
  induction bs with
  | nil => simp [bytesToNat]
  | cons b bs ih =>
    have hb : b.toNat < 256 := b.isLt
    simp only [bytesToNat, List.length_cons, Nat.pow_succ]
    omega

theorem bytesToNat_div_mod (bs : List Byte) (i : Nat) (hi : i < bs.length) :
    bytesToNat bs / 256 ^ i % 256 = bs[i].toNat := by
  induction bs generalizing i with
  | nil => simp at hi
  | cons b bs ih =>
    have hb : b.toNat < 256 := b.isLt
    cases i with
    | zero => simpa [bytesToNat] using hb
    | succ i =>
      have htail : (b.toNat + 256 * bytesToNat bs) / 256 = bytesToNat bs := by omega
      simpa [bytesToNat, Nat.pow_succ', ← Nat.div_div_eq_div_mul, htail] using ih i (by simpa using hi)

theorem State.doutPort_toNat (s : State) : s.doutPort.toNat = bytesToNat s.dout.toList := by
  have hlt : bytesToNat s.dout.toList < 256 ^ 16 := by simpa using bytesToNat_lt s.dout.toList
  exact Nat.mod_eq_of_lt hlt

/-- Settles O24: the port's number is `bytesToNat` of `dout` in full, and bits `8 i + 7 : 8 i` of a number are its digit
`i` to the base 256. -/
theorem digestPortLanes : Obligations.DigestPortLanes := by
  intro s i
  apply BitVec.eq_of_toNat_eq
  calc (s.doutPort.extractLsb' (8 * i.val) 8).toNat
      = bytesToNat s.dout.toList / 256 ^ i.val % 256 := by
        simp [State.doutPort_toNat, Nat.shiftRight_eq_div_pow, Nat.pow_mul]
    _ = s.dout[i].toNat := by simp [bytesToNat_div_mod]

end Sys2Proof.Machine
end

section
/-!
LOADX (R35, R71): the three blocks of sixteen bytes that the scratch array is loaded with.
-/
namespace Sys2Proof.Machine

variable (state input : Block) (i : Nat) (hi : i < 16)

/-- The length 48 is that of the three blocks end to end. -/
theorem loadX_getElem (k : Nat) (hk : k < 16 + 16 + 16) :
    (loadX state input)[k] =
      (state ++ input ++ Vector.zipWith (· ^^^ ·) state input : Vector Byte (16 + 16 + 16))[k] := rfl

theorem loadX_getElem_state : (loadX state input)[i] = state[i] := by
  have hfront : i < 16 + 16 := by omega
  rw [loadX_getElem, Vector.getElem_append_left hfront, Vector.getElem_append_left hi]

theorem loadX_getElem_input : (loadX state input)[16 + i] = input[i] := by
  have hfront : 16 + i < 16 + 16 := by omega
  rw [loadX_getElem, Vector.getElem_append_left hfront, Vector.getElem_append_right _ (by omega)]
  simp

theorem loadX_getElem_xor : (loadX state input)[32 + i] = state[i] ^^^ input[i] := by
  rw [loadX_getElem, Vector.getElem_append_right _ (by omega)]
  simp

/-- Settles O27: one lemma for each of the three blocks. -/
theorem scratchArrayLayout : Obligations.ScratchArrayLayout := fun st input i =>
  ⟨loadX_getElem_state st input i i.isLt, loadX_getElem_input st input i i.isLt, loadX_getElem_xor st input i i.isLt⟩

end Sys2Proof.Machine
end

section
/-!
The opcode map (R54, R55) over the number of a header, and the headers that match none of its rows.
-/
namespace Sys2Proof

/-- The mask of the one row with an operand keeps the opcode field (R51). -/
theorem and_opMask_eq_append (hdr : BitVec 16) : hdr &&& 0xf000 = headerOp hdr ++ 0#12 := by
  have hfields : headerOp hdr ++ headerLen hdr = hdr := by
    rw [headerOp, headerLen, BitVec.extractLsb'_append_extractLsb'_eq_extractLsb' (by rfl)]
    exact BitVec.extractLsb'_eq_self
  calc hdr &&& 0xf000 = (headerOp hdr ++ headerLen hdr) &&& (0xf#4 ++ 0#12) := by rw [hfields]; rfl
    _ = (headerOp hdr &&& 0xf#4) ++ (headerLen hdr &&& 0#12) := BitVec.and_append
    _ = headerOp hdr ++ 0#12 := by rw [BitVec.and_zero]; exact congrArg (· ++ 0#12) BitVec.and_allOnes

theorem toNat_and_opMask (hdr : BitVec 16) : (hdr &&& 0xf000).toNat = hdr.toNat / 4096 * 4096 := by
  have hlt := hdr.isLt
  rw [and_opMask_eq_append, BitVec.toNat_append, headerOp, BitVec.extractLsb'_toNat]
  simp only [Nat.shiftRight_eq_div_pow, Nat.shiftLeft_eq, BitVec.toNat_ofNat, Nat.zero_mod, Nat.or_zero]
  omega

theorem and_fullMask_eq_iff (hdr m : BitVec 16) : hdr &&& 0xffff = m ↔ hdr.toNat = m.toNat := by
  rw [show hdr &&& 0xffff = hdr from BitVec.and_allOnes, BitVec.toNat_inj]

theorem and_opMask_eq_iff (hdr : BitVec 16) : hdr &&& 0xf000 = 0x2000 ↔ hdr.toNat / 4096 = 2 := by
  rw [← BitVec.toNat_inj, toNat_and_opMask, show (0x2000 : BitVec 16).toNat = 2 * 4096 from rfl]
  omega

/-- `len` is the header's number to twelve bits (R51). -/
theorem headerLen_eq_ofNat (hdr : BitVec 16) : headerLen hdr = BitVec.ofNat 12 hdr.toNat := rfl

/-- The opcode map over the header's number (R54). -/
theorem decodeHeader_eq_ite_toNat (hdr : BitVec 16) :
    decodeHeader hdr =
      if hdr.toNat = 0x1000 then some .init
      else if hdr.toNat / 4096 = 2 then some (.update (BitVec.ofNat 12 hdr.toNat))
      else if hdr.toNat = 0x3000 then some .final
      else if hdr.toNat = 0x4000 then some .peek
      else none := by
  simp only [decodeHeader, and_fullMask_eq_iff, and_opMask_eq_iff, headerLen_eq_ofNat, BitVec.reduceToNat]

theorem decodeHeader_eq_none_iff (hdr : BitVec 16) :
    decodeHeader hdr = none ↔
      hdr.toNat ≠ 0x1000 ∧ hdr.toNat / 4096 ≠ 2 ∧ hdr.toNat ≠ 0x3000 ∧ hdr.toNat ≠ 0x4000 := by
  rw [decodeHeader_eq_ite_toNat]
  split_ifs <;> simp_all

/-- Settles O1: `toNat_headerWord` reads the two bytes as the header's number, and each row's test on that number is the
one on opcode and `len`. -/
theorem decodeHeaderFollowsTheOpcodeMap : Obligations.DecodeHeaderFollowsTheOpcodeMap := by
  intro b0 b1
  have h0 := b0.isLt
  have h1 := b1.isLt
  have hrow (op : Nat) : b0.toNat * 256 + b1.toNat = op * 4096 ↔
      b0.toNat / 16 = op ∧ b0.toNat % 16 * 256 + b1.toNat = 0 := by omega
  have hop : (b0.toNat * 256 + b1.toNat) / 4096 = b0.toNat / 16 := by omega
  have hlen : BitVec.ofNat 12 (b0.toNat * 256 + b1.toNat) = BitVec.ofNat 12 (b0.toNat % 16 * 256 + b1.toNat) := by
    apply BitVec.eq_of_toNat_eq
    simp only [BitVec.toNat_ofNat]
    omega
  rw [decodeHeader_eq_ite_toNat, toNat_headerWord, hop, hlen]
  simp only [← hrow]

/-! ### How many headers are illegal -/

/-- The numbers of the headers that match a row of the opcode map. -/
def legalHeaders : Finset Nat := {0x1000, 0x3000, 0x4000} ∪ Finset.Ico 0x2000 0x3000

theorem mem_legalHeaders (n : Nat) :
    n ∈ legalHeaders ↔ n = 0x1000 ∨ n / 4096 = 2 ∨ n = 0x3000 ∨ n = 0x4000 := by
  simp only [legalHeaders, Finset.mem_union, Finset.mem_insert, Finset.mem_singleton, Finset.mem_Ico]
  omega

theorem card_legalHeaders : legalHeaders.card = 4099 := by
  have hdisj : Disjoint {0x1000, 0x3000, 0x4000} (Finset.Ico 0x2000 0x3000) := by simp
  rw [legalHeaders, Finset.card_union_of_disjoint hdisj, Nat.card_Ico]
  rfl

theorem legalHeaders_subset_range : legalHeaders ⊆ Finset.range 65536 := by
  intro n hn
  rw [mem_legalHeaders] at hn
  rw [Finset.mem_range]
  omega

theorem decodeHeader_ofNat_eq_none_iff {n : Nat} (hn : n < 65536) :
    decodeHeader (BitVec.ofNat 16 n) = none ↔ n ∉ legalHeaders := by
  rw [decodeHeader_eq_none_iff, BitVec.toNat_ofNat, Nat.mod_eq_of_lt hn, mem_legalHeaders]
  simp only [not_or, ne_eq]

theorem filter_illegal_eq_sdiff :
    (Finset.range 65536).filter (fun n => decodeHeader (BitVec.ofNat 16 n) = none) =
      Finset.range 65536 \ legalHeaders := by
  rw [Finset.sdiff_eq_filter]
  exact Finset.filter_congr fun n hn => decodeHeader_ofNat_eq_none_iff (Finset.mem_range.mp hn)

theorem length_filter_illegal :
    ((List.range 65536).filter fun n => decodeHeader (BitVec.ofNat 16 n) = none).length = 61437 := by
  rw [← List.countP_eq_length_filter]
  calc Nat.count (fun n => decodeHeader (BitVec.ofNat 16 n) = none) 65536
      = (Finset.range 65536 \ legalHeaders).card := by
        rw [Nat.count_eq_card_filter_range, filter_illegal_eq_sdiff]
    _ = 61437 := by
        rw [Finset.card_sdiff_of_subset legalHeaders_subset_range, Finset.card_range, card_legalHeaders]

end Sys2Proof

namespace Sys2Proof.Machine

/-- An illegal header at the head of the stream raises `IllegalCommand`, whatever follows it (R55, R124). -/
theorem step_illegal_header {s : State} {b0 b1 : Byte} {rest : List HostEvent} (hp : s.phase ≠ .fault)
    (hin : s.input = .byte b0 :: .byte b1 :: rest) (hd : decodeHeader (headerWord b0 b1) = none) :
    step s = .next (s.raise .illegalCommand) := by
  have hill : decode (streamBytes s.input) = .illegal (headerWord b0 b1) := by simp [hin, decode, hd]
  exact step_illegal hp hill

/-- Settles O2: the five ranges are what the four rows leave, the count is 65536 less the 4099 legal headers, and the
fault is `step_illegal_header`. -/
theorem illegalHeadersAreTheFiveRangesAndFault : Obligations.IllegalHeadersAreTheFiveRangesAndFault := by
  refine ⟨fun hdr => ?ranges, length_filter_illegal, fun s b0 b1 rest hp hin hd => step_illegal_header hp hin hd⟩
  case ranges =>
    have hlt := hdr.isLt
    rw [decodeHeader_eq_none_iff]
    omega

end Sys2Proof.Machine
end

section
/-!
ROUND, MIX and CKS (R72 to R74). Each of the two loops carries one byte along; position `k` of its output is made with
the byte at position `k` of the carried bytes, which are the byte it began with and then its own output.
-/
namespace Sys2Proof.Machine

/-! ### The inner loop of a round -/

theorem substitute_getElem (bs : List Byte) (t : Byte) (k : Nat) (hk : k < bs.length) :
    (substitute bs t).1[k]'(by rwa [length_substitute]) =
      bs[k] ^^^ S ((t :: (substitute bs t).1)[k]'(by simp [length_substitute]; omega)) := by
  induction bs generalizing t k with
  | nil => simp at hk
  | cons b bs ih =>
    cases k with
    | zero => rfl
    | succ k => exact ih (b ^^^ S t) k (Nat.lt_of_succ_lt_succ hk)

theorem substitute_snd (bs : List Byte) (t : Byte) :
    (substitute bs t).2 = (t :: (substitute bs t).1).getLast (List.cons_ne_nil _ _) := by
  induction bs generalizing t with
  | nil => rfl
  | cons b bs ih => exact ih (b ^^^ S t)

section Round

variable (j : Nat) (w : Scratch)

theorem mixRound_x_toList : (mixRound j w).x.toList = (substitute w.x.toList w.t).1 := rfl

theorem mixRound_x_getElem_zero : (mixRound j w).x[0] = w.x[0] ^^^ S w.t :=
  substitute_getElem w.x.toList w.t 0 (by simp)

theorem mixRound_x_getElem_succ (k : Nat) (hk : k < 47) :
    (mixRound j w).x[k + 1] = w.x[k + 1] ^^^ S (mixRound j w).x[k] :=
  substitute_getElem w.x.toList w.t (k + 1) (by simp; omega)

theorem mixRound_t : (mixRound j w).t = (mixRound j w).x[47] + BitVec.ofNat 8 j := by
  have hlast : (substitute w.x.toList w.t).2 = (mixRound j w).x[47] := by
    rw [substitute_snd, ← mixRound_x_toList j w, List.getLast_eq_getElem]
    simp
  exact congrArg (· + BitVec.ofNat 8 j) hlast

end Round

/-- Settles O28: the loop's output at the first position, at a later one, and its last byte. -/
theorem roundIsTheSubstitutionChain : Obligations.RoundIsTheSubstitutionChain := by
  intro j w
  refine ⟨mixRound_x_getElem_zero j w, mixRound_x_getElem_succ j w, ?index⟩
  case index => rw [mixRound_t, BitVec.toNat_add, BitVec.toNat_ofNat, Nat.add_mod_mod]

/-! ### The eighteen rounds -/

theorem mixRounds_zero (w : Scratch) : mixRounds 0 w = w := rfl

theorem mixRounds_succ (n : Nat) (w : Scratch) : mixRounds (n + 1) w = mixRound n (mixRounds n w) := by
  simp [mixRounds, List.range_succ]

theorem mix_getElem (state input : Block) (i : Nat) (hi : i < 16) :
    (mix state input)[i] = (mixRounds 18 { x := loadX state input, t := 0 }).x[i] := by
  simp [mix, Config.rounds]

/-- A sequence in which each value is the round of the value before it is the sequence of `mixRounds`. -/
theorem eq_mixRounds_of_rounds {W : Nat → Scratch} {m : Nat} (hround : ∀ j < m, W (j + 1) = mixRound j (W j)) :
    ∀ n ≤ m, W n = mixRounds n (W 0) := by
  intro n hn
  induction n with
  | zero => rw [mixRounds_zero]
  | succ n ih => rw [mixRounds_succ, hround n hn, ih (Nat.le_of_succ_le hn)]

/-- Settles O29: value 18 is `mixRounds 18` of the loaded scratch array, and that is what `mix` keeps sixteen bytes of. -/
theorem mixIsEighteenRounds : Obligations.MixIsEighteenRounds := by
  intro st input W hload hround i
  rw [eq_mixRounds_of_rounds hround 18 le_rfl, hload]
  exact mix_getElem st input i i.isLt

/-! ### The checksum -/

theorem checksumChain_getElem (ps : List (Byte × Byte)) (l : Byte) (k : Nat) (hk : k < ps.length) :
    (checksumChain ps l)[k]'(by rwa [length_checksumChain]) =
      ps[k].1 ^^^ S (ps[k].2 ^^^ (l :: checksumChain ps l)[k]'(by simp [length_checksumChain]; omega)) := by
  induction ps generalizing l k with
  | nil => simp at hk
  | cons p ps ih =>
    cases k with
    | zero => rfl
    | succ k => exact ih (p.1 ^^^ S (p.2 ^^^ l)) k (Nat.lt_of_succ_lt_succ hk)

section Cks

variable (ck input : Block)

theorem cks_toList : (cks ck input).toList = checksumChain (ck.toList.zip input.toList) ck[15] := by
  rw [cks]; rfl

theorem cks_getElem (k : Nat) (hk : k < 16) :
    (cks ck input)[k] = ck[k] ^^^ S (input[k] ^^^ (ck[15] :: (cks ck input).toList)[k]'(by simp; omega)) := by
  have hchain := checksumChain_getElem (ck.toList.zip input.toList) ck[15] k (by simpa)
  simp only [← cks_toList] at hchain
  simpa using hchain

end Cks

/-- Settles O30: `cks_getElem`, where the carried byte is the old `checksum[15]` at position 0 and the byte just written
after it. -/
theorem checksumIsTheXorChain : Obligations.ChecksumIsTheXorChain := by
  intro ck input
  refine ⟨cks_getElem ck input 0 (by decide), fun j hj => ?later⟩
  case later => simpa using cks_getElem ck input (j + 1) (by omega)

end Sys2Proof.Machine
end

section
/-!
UPDATE in closed form (R93). Its registers are those of the bytes held in the buffer and then the payload, cut into
blocks; each register has one lemma for a payload that stays in the buffer and one for a payload that fills it.
-/
namespace Sys2Proof.Machine

variable (s : State) (bytes : List Byte)

/-- The buffered bytes and then the payload: `D` of R93. -/
def State.pending (s : State) (bytes : List Byte) : List Byte := s.buffer.toList.take s.count.toNat ++ bytes

@[simp] theorem State.length_pending : (s.pending bytes).length = s.count.toNat + bytes.length := by
  have hc : s.count.toNat < 16 := s.count.isLt
  rw [State.pending, List.length_append, List.length_take, Vector.length_toList, Nat.min_eq_left hc.le]

theorem State.pending_getD (k : Nat) (hk : k < 16) :
    (s.pending bytes).getD k 0 = if k < s.count.toNat then s.buffer[k] else bytes.getD (k - s.count.toNat) 0 := by
  have hc : s.count.toNat < 16 := s.count.isLt
  have hheld : (s.buffer.toList.take s.count.toNat).length = s.count.toNat := by simp; omega
  split_ifs with hlt
  · rw [State.pending, List.getD_append _ _ _ _ (by omega)]
    simp [List.getD_eq_getElem?_getD, hlt, hk]
  · rw [State.pending, List.getD_append_right _ _ _ _ (by omega), hheld]

theorem State.drop_pending : (s.pending bytes).drop 16 = bytes.drop (16 - s.count.toNat) := by
  have hc : s.count.toNat < 16 := s.count.isLt
  rw [State.pending, List.drop_append, List.drop_eq_nil_of_le (by simp), List.length_take, Vector.length_toList,
    Nat.min_eq_left hc.le, List.nil_append]

/-- How many pending bytes are left behind the whole blocks. -/
theorem State.length_drop_pending :
    ((s.pending bytes).drop (16 * ((s.count.toNat + bytes.length) / 16))).length =
      (s.count.toNat + bytes.length) % 16 := by
  rw [List.length_drop, State.length_pending]
  omega

/-! ### The payload stays in the buffer: no block is compressed -/

section Stays

variable {s bytes} (h : s.count.toNat + bytes.length < 16)
include h

theorem absorb_hash_of_lt :
    ((s.absorb bytes).state, (s.absorb bytes).checksum) = hashBlocks s.state s.checksum (s.pending bytes) 0 := by
  rw [absorb_of_lt bytes h, hashBlocks]

theorem absorb_count_of_lt : (s.absorb bytes).count.toNat = s.count.toNat + bytes.length := by
  rw [absorb_of_lt bytes h, BitVec.toNat_ofNat, Nat.mod_eq_of_lt h]

theorem absorb_buffer_of_lt (k : Nat) (hk : k < 16) :
    (s.absorb bytes).buffer[k] =
      if k < s.count.toNat + bytes.length then (s.pending bytes).getD k 0 else s.buffer[k] := by
  simp only [absorb_of_lt bytes h, getElem_writeBytes _ _ _ _ hk h.le, State.pending_getD s bytes k hk]
  grind

end Stays

/-! ### The payload fills the buffer: the first block passes through it, the rest of the bytes overwrites its front -/

section Fills

variable {s bytes} (h : 16 ≤ s.count.toNat + bytes.length)
include h

theorem fill_buffer_eq_blockAt : (s.fill bytes).buffer = blockAt (s.pending bytes) 0 := by
  have hc : s.count.toNat < 16 := s.count.isLt
  have ha : available bytes.length s.count = 16 - s.count.toNat := by simp [available]; omega
  refine Vector.ext fun k hk => ?_
  rw [State.fill_buffer, ha, getElem_writeBytes _ _ _ _ hk (by simp; omega), getElem_blockAt _ _ _ hk, Nat.mul_zero,
    Nat.zero_add, State.pending_getD s bytes k hk]
  grind

/-- Steps 4 to 6 of `UPDATE` over the pending bytes. -/
theorem absorb_eq_of_le :
    s.absorb bytes =
      (((s.fill bytes).compress (blockAt (s.pending bytes) 0)).compressAll
        (splitBlocks ((s.pending bytes).drop 16)).1).store
          ((s.pending bytes).drop (16 * ((s.count.toNat + bytes.length) / 16))) := by
  have hrest : (splitBlocks ((s.pending bytes).drop 16)).2 =
      (s.pending bytes).drop (16 * ((s.count.toNat + bytes.length) / 16)) := by
    have hblocks : 16 + 16 * ((s.count.toNat + bytes.length - 16) / 16) =
        16 * ((s.count.toNat + bytes.length) / 16) := by omega
    simp only [splitBlocks_eq, List.drop_drop, List.length_drop, State.length_pending, hblocks]
  rw [← hrest, State.drop_pending, ← fill_buffer_eq_blockAt h]
  exact absorb_of_le bytes h

theorem absorb_hash_of_le :
    ((s.absorb bytes).state, (s.absorb bytes).checksum) =
      hashBlocks s.state s.checksum (s.pending bytes) ((s.count.toNat + bytes.length) / 16) := by
  have hq : (s.count.toNat + bytes.length) / 16 = ((s.pending bytes).drop 16).length / 16 + 1 := by
    rw [List.length_drop, State.length_pending]
    omega
  rw [absorb_eq_of_le h, hq, hashBlocks_succ_left, State.store_state, State.store_checksum, compressAll_splitBlocks]
  rfl

theorem absorb_count_of_le : (s.absorb bytes).count.toNat = (s.count.toNat + bytes.length) % 16 := by
  rw [absorb_eq_of_le h, State.store_count, State.length_drop_pending, BitVec.toNat_ofNat]
  exact Nat.mod_mod _ 16

theorem absorb_buffer_of_le (k : Nat) (hk : k < 16) :
    (s.absorb bytes).buffer[k] =
      if k < (s.count.toNat + bytes.length) % 16 then
        (s.pending bytes).getD (16 * ((s.count.toNat + bytes.length) / 16) + k) 0
      else (s.pending bytes).getD k 0 := by
  simp only [absorb_eq_of_le h, State.store_buffer, State.compressAll_buffer, State.compress_buffer,
    fill_buffer_eq_blockAt h]
  have hlen := State.length_drop_pending s bytes
  rw [getElem_writeBytes _ _ _ _ hk (by omega), getElem_blockAt _ _ _ hk, hlen]
  simp [List.getD_eq_getElem?_getD]

end Fills

/-! ### Both cases together -/

theorem absorb_hash :
    ((s.absorb bytes).state, (s.absorb bytes).checksum) =
      hashBlocks s.state s.checksum (s.pending bytes) ((s.count.toNat + bytes.length) / 16) := by
  by_cases h : s.count.toNat + bytes.length < 16
  · rw [Nat.div_eq_of_lt h, absorb_hash_of_lt h]
  · exact absorb_hash_of_le (Nat.le_of_not_lt h)

theorem absorb_count : (s.absorb bytes).count.toNat = (s.count.toNat + bytes.length) % 16 := by
  by_cases h : s.count.toNat + bytes.length < 16
  · rw [Nat.mod_eq_of_lt h, absorb_count_of_lt h]
  · exact absorb_count_of_le (Nat.le_of_not_lt h)

/-- The valid bytes are the rest of the pending ones; the stale ones are the old ones if no block was compressed, and those
of the first block otherwise. -/
theorem absorb_buffer (k : Nat) (hk : k < 16) :
    (s.absorb bytes).buffer[k] =
      if k < (s.count.toNat + bytes.length) % 16 then
        (s.pending bytes).getD (16 * ((s.count.toNat + bytes.length) / 16) + k) 0
      else if (s.count.toNat + bytes.length) / 16 = 0 then s.buffer[k] else (s.pending bytes).getD k 0 := by
  by_cases h : s.count.toNat + bytes.length < 16
  · rw [absorb_buffer_of_lt h k hk, Nat.mod_eq_of_lt h, Nat.div_eq_of_lt h, if_pos rfl, Nat.mul_zero, Nat.zero_add]
  · have hq : (s.count.toNat + bytes.length) / 16 ≠ 0 := by omega
    rw [absorb_buffer_of_le (Nat.le_of_not_lt h) k hk, if_neg hq]

/-- Settles O32: the next state is that of `absorb` with the command's bytes taken; one lemma for each register that
`absorb` writes, and the others are kept. -/
theorem updateClosedForm : Obligations.UpdateClosedForm := by
  intro s bytes hactive c D q
  refine ⟨_, exec_update bytes hactive, absorb_hash s bytes, absorb_count s bytes, fun k => ?buffer, ?kept⟩
  case buffer =>
    rw [State.consume_buffer, State.consume_count, absorb_count]
    exact absorb_buffer s bytes k k.isLt
  case kept => simp [hactive, Nat.add_assoc]

end Sys2Proof.Machine
end

section
/-!
HEX (R111): the digits of byte `i` stand at positions `2 i` and `2 i + 1`, because every byte is rendered as two
characters.
-/
namespace Sys2Proof.Machine

/-- Element `i` of a list whose elements are each replaced by two. -/
theorem getElem?_flatMap_pair {α β : Type} (f g : α → β) (l : List α) (i : Nat) :
    (l.flatMap fun a => [f a, g a])[2 * i]? = l[i]?.map f ∧
      (l.flatMap fun a => [f a, g a])[2 * i + 1]? = l[i]?.map g := by
  induction l generalizing i with
  | nil => simp
  | cons a l ih =>
    cases i with
    | zero => simp
    | succ i => simpa [Nat.mul_add] using ih i

theorem getElem?_digits_eq_hexDigit (v : BitVec 4) :
    ['0', '1', '2', '3', '4', '5', '6', '7', '8', '9', 'a', 'b', 'c', 'd', 'e', 'f'][v.toNat]? = some (hexDigit v) := by
  have hv : v.toNat < 16 := v.isLt
  exact List.getElem?_eq_getElem hv

theorem toNat_highNibble (b : Byte) : (b.extractLsb' 4 4).toNat = b.toNat / 16 := by
  have hb : b.toNat < 256 := b.isLt
  rw [BitVec.extractLsb'_toNat, Nat.shiftRight_eq_div_pow]
  omega

theorem toNat_lowNibble (b : Byte) : (b.extractLsb' 0 4).toNat = b.toNat % 16 := by
  rw [BitVec.extractLsb'_toNat, Nat.shiftRight_zero]

@[simp] theorem length_hexChars (d : Block) : (hexChars d).length = 32 := by
  simp [hexChars, List.length_flatMap]

@[simp] theorem toList_hex (d : Block) : (hex d).toList = hexChars d := String.toList_ofList

theorem hexChars_getElem?_high (d : Block) (i : Fin 16) :
    (hexChars d)[2 * i.val]? = some (hexDigit (d[i].extractLsb' 4 4)) := by
  simp [hexChars, (getElem?_flatMap_pair _ _ d.toList i).1]

theorem hexChars_getElem?_low (d : Block) (i : Fin 16) :
    (hexChars d)[2 * i.val + 1]? = some (hexDigit (d[i].extractLsb' 0 4)) := by
  simp [hexChars, (getElem?_flatMap_pair _ _ d.toList i).2]

/-- Settles O25: the two characters of byte `i` are the digits of its nibbles, and a nibble is the byte's quotient or
remainder by 16. -/
theorem hexRendering : Obligations.HexRendering := by
  intro d
  refine ⟨?length, fun i => ⟨?high, ?low⟩⟩
  case length => rw [toList_hex, length_hexChars, Config.digestHexChars]
  case high => rw [toList_hex, hexChars_getElem?_high, ← toNat_highNibble, getElem?_digits_eq_hexDigit]
  case low => rw [toList_hex, hexChars_getElem?_low, ← toNat_lowNibble, getElem?_digits_eq_hexDigit]

end Sys2Proof.Machine
end

section
/-!
FINAL register by register (R105 to R108).
-/
namespace Sys2Proof.Machine

/-- A block that holds the buffered bytes and then the padding length is the padded block (R106). -/
theorem eq_padded {buffer P : Block} {count : BitVec 4}
    (hP : ∀ k : Fin 16, P[k] = if k.val < count.toNat then buffer[k] else BitVec.ofNat 8 (16 - count.toNat)) :
    P = padded buffer count := by
  refine Vector.ext fun k hk => ?_
  rw [getElem_padded _ _ _ hk]
  exact hP ⟨k, hk⟩

/-- Settles O34: the block is `padded` by `eq_padded`, and `State.deliver` with the command's two bytes taken holds the
registers stated. -/
theorem finalDeliversTheDigest : Obligations.FinalDeliversTheDigest := by
  intro s P hactive hP st ck
  obtain rfl := eq_padded hP
  exact exec_final hactive

end Sys2Proof.Machine
end

section
/-!
The message that a live engine holds (R92, R110): a fresh one holds the empty message, UPDATE appends its payload, PEEK
keeps the message, and steps 1 to 4 of FINAL leave its digest in `state`. A list of commands then follows by induction.
-/
namespace Sys2Proof.Machine

variable {s : State} {m : List Byte}

/-! ### Blocks and hashing of a message that goes on -/

/-- Block `q` of `D` is what stands at its position. -/
theorem blockAt_eq_of_drop {D : List Byte} {q : Nat} {b : Block} (h : D.drop (16 * q) = b.toList) : blockAt D q = b := by
  refine Vector.ext fun k hk => ?_
  have hget : (D.drop (16 * q))[k]? = some b[k] := by simp [h, hk]
  rw [List.getElem?_drop] at hget
  simp [List.getD_eq_getElem?_getD, hget]

/-- Hashing the whole blocks of a message does not see what is appended to it. -/
theorem hashBlocks_append (st ck : Block) (m bytes : List Byte) :
    hashBlocks st ck (m ++ bytes) (m.length / 16) = hashBlocks st ck m (m.length / 16) :=
  hashBlocks_congr st ck _ fun _ hk => List.getD_append _ _ _ _ (by omega)

theorem drop_blocks_append (m bytes : List Byte) :
    (m ++ bytes).drop (16 * (m.length / 16)) = m.drop (16 * (m.length / 16)) ++ bytes :=
  List.drop_append_of_le_length (by omega)

/-- The valid bytes that `UPDATE` leaves in the buffer are the pending ones behind the whole blocks (R93). -/
theorem absorb_tail (s : State) (bytes : List Byte) :
    (s.absorb bytes).buffer.toList.take (s.absorb bytes).count.toNat =
      (s.pending bytes).drop (16 * ((s.count.toNat + bytes.length) / 16)) := by
  have hlen := State.length_drop_pending s bytes
  rw [absorb_count]
  refine List.ext_getElem (by simp; omega) fun k hk hk' => ?_
  rw [List.getElem_take, Vector.getElem_toList, absorb_buffer s bytes k (by omega), if_pos (by omega), List.getElem_drop,
    List.getD_eq_getElem]

/-! ### What the operations of the commands do to the message held -/

theorem absorbed_nil (hactive : s.phase = .active) (hstate : s.state = zeroBlock) (hck : s.checksum = zeroBlock)
    (hcount : s.count = 0) : s.Absorbed [] where
  active := hactive
  chain := by simp [hstate, hck, hashBlocks]
  count := by simp [hcount]
  tail := by simp [hcount]

/-- Only the hashing registers and the phase decide what message is held. -/
theorem State.Absorbed.congr {t : State} (h : s.Absorbed m) (hphase : t.phase = s.phase) (hstate : t.state = s.state)
    (hck : t.checksum = s.checksum) (hcount : t.count = s.count) (hbuffer : t.buffer = s.buffer) : t.Absorbed m where
  active := hphase.trans h.active
  chain := by rw [hstate, hck, h.chain]
  count := by rw [hcount, h.count]
  tail := by rw [hcount, hbuffer, h.tail]

theorem State.Absorbed.consume (h : s.Absorbed m) (n : Nat) : (s.consume n).Absorbed m := h.congr rfl rfl rfl rfl rfl

theorem State.Absorbed.exhibit (h : s.Absorbed m) : s.exhibit.Absorbed m := h.congr rfl rfl rfl rfl rfl

theorem State.Absorbed.pending_eq (h : s.Absorbed m) (bytes : List Byte) :
    s.pending bytes = (m ++ bytes).drop (16 * (m.length / 16)) := by
  rw [State.pending, h.tail, drop_blocks_append]

theorem State.Absorbed.absorb (h : s.Absorbed m) (bytes : List Byte) : (s.absorb bytes).Absorbed (m ++ bytes) := by
  have hcount := h.count
  have hq : (m ++ bytes).length / 16 = m.length / 16 + (s.count.toNat + bytes.length) / 16 := by
    rw [List.length_append]
    omega
  refine ⟨?active, ?chain, ?count, ?tail⟩
  case active => rw [absorb_phase, h.active]
  case chain => rw [hq, hashBlocks_add, hashBlocks_append, ← h.chain, ← h.pending_eq, absorb_hash]
  case count =>
    rw [absorb_count, List.length_append]
    omega
  case tail => rw [absorb_tail, h.pending_eq, List.drop_drop, hq, Nat.mul_add]

/-- The padded block of the buffer is the last block of the padded message (R106, R110). -/
theorem State.Absorbed.blockAt_padMessage (h : s.Absorbed m) :
    blockAt (padMessage m) (m.length / 16) = padded s.buffer s.count := by
  apply blockAt_eq_of_drop
  rw [toList_padded, h.tail, padMessage, drop_blocks_append, h.count]

theorem length_padMessage_div (m : List Byte) : (padMessage m).length / 16 = m.length / 16 + 1 := by
  rw [padMessage, List.length_append, List.length_replicate]
  omega

theorem State.Absorbed.finish_state_eq_md2 (h : s.Absorbed m) : s.finish.state = md2 m := by
  have hblocks : hashBlocks zeroBlock zeroBlock (padMessage m) (m.length / 16) = (s.state, s.checksum) := by
    rw [padMessage, hashBlocks_append, h.chain]
  simp only [State.finish_state, md2, length_padMessage_div, hashBlocks, hblocks, h.blockAt_padMessage]

/-! ### The commands -/

theorem exec_init_absorbed (h : s.phase ≠ .fault) :
    ∃ t, exec .init s = .next t ∧ t.Absorbed [] ∧ t.cause = s.cause :=
  ⟨_, exec_init h, absorbed_nil rfl rfl rfl rfl, rfl⟩

theorem afterReset_absorbed (rest : List HostEvent) : (State.afterReset rest).Absorbed [] :=
  absorbed_nil rfl rfl rfl rfl

/-- An `UPDATE` or a `PEEK` appends its payload to the message; that of `PEEK` is empty. -/
theorem State.Absorbed.exec_streaming {i : Instr} (h : s.Absorbed m) (hi : Streaming i) :
    ∃ t, exec i s = .next t ∧ t.Absorbed (m ++ encodePayload i) ∧ t.cause = s.cause := by
  rcases hi with rfl | ⟨payload, rfl⟩
  · refine ⟨_, exec_peek h.active, ?_, rfl⟩
    rw [encodePayload, List.append_nil]
    exact h.exhibit.consume 2
  · exact ⟨_, exec_update payload h.active, (h.absorb payload).consume _, absorb_cause payload⟩

theorem State.Absorbed.exec_peek_dout (h : s.Absorbed m) :
    ∃ t, exec .peek s = .next t ∧ t.dout = md2 m ∧ t.dvalid = true ∧ t.phase = .active ∧ t.cause = s.cause :=
  ⟨_, exec_peek h.active, h.finish_state_eq_md2, rfl, h.active, rfl⟩

theorem State.Absorbed.exec_final_dout (h : s.Absorbed m) :
    ∃ t, exec .final s = .next t ∧ t.dout = md2 m ∧ t.dvalid = true ∧ t.phase = .done ∧ t.cause = s.cause :=
  ⟨_, exec_final h.active, h.finish_state_eq_md2, rfl, rfl, rfl⟩

/-! ### Lists of commands -/

theorem messageOf_cons (i : Instr) (is : List Instr) : messageOf (i :: is) = encodePayload i ++ messageOf is := rfl

theorem execAll_singleton (i : Instr) (s : State) : execAll [i] s = exec i s := by
  simp only [execAll]
  cases exec i s <;> rfl

section Lists

variable {is : List Instr} (his : ∀ i ∈ is, Streaming i) (h : s.Absorbed m)
include his h

theorem State.Absorbed.execAll_streaming :
    ∃ t, execAll is s = .next t ∧ t.Absorbed (m ++ messageOf is) ∧ t.cause = s.cause := by
  induction is generalizing s m with
  | nil => exact ⟨s, rfl, by simpa [messageOf] using h, rfl⟩
  | cons i is ih =>
    obtain ⟨hi, his⟩ := List.forall_mem_cons.mp his
    obtain ⟨u, hu, hum, hucause⟩ := h.exec_streaming hi
    obtain ⟨t, ht, htm, htcause⟩ := ih his hum
    rw [messageOf_cons, ← List.append_assoc]
    exact ⟨t, (execAll_cons hu).trans ht, htm, htcause.trans hucause⟩

/-- With a `FINAL` behind the list, and with a `PEEK` behind it, `dout` is the digest of the whole message. -/
theorem State.Absorbed.execAll_streaming_dout :
    (∃ t, execAll (is ++ [.final]) s = .next t ∧ t.dout = md2 (m ++ messageOf is) ∧ t.dvalid = true ∧
      t.phase = .done ∧ t.cause = s.cause) ∧
    (∃ t, execAll (is ++ [.peek]) s = .next t ∧ t.dout = md2 (m ++ messageOf is) ∧ t.dvalid = true ∧
      t.phase = .active ∧ t.cause = s.cause) := by
  obtain ⟨u, hu, hum, hucause⟩ := h.execAll_streaming his
  rw [execAll_append hu, execAll_append hu, execAll_singleton, execAll_singleton, ← hucause]
  exact ⟨hum.exec_final_dout, hum.exec_peek_dout⟩

end Lists

/-- Settles O43: after the `INIT`, and after the reset, the engine holds the empty message; the list appends its
payloads, and the last command shows their digest. -/
theorem commandSequenceDeliversTheDigest : Obligations.CommandSequenceDeliversTheDigest := by
  intro is his
  refine ⟨fun s hlive => ?init, fun s r rest hrst hstep => ?reset⟩
  case init =>
    obtain ⟨u, hu, hempty, hcause⟩ := exec_init_absorbed hlive
    rw [List.cons_append, List.cons_append, execAll_cons hu, execAll_cons hu, ← hcause]
    exact hempty.execAll_streaming_dout his
  case reset =>
    obtain rfl : State.afterReset rest = r := by simpa [step_rst hrst] using hstep
    obtain ⟨⟨t, ht, hdout, hdvalid, hphase, -⟩, u, hu, hudout, hudvalid, huphase, -⟩ :=
      (afterReset_absorbed rest).execAll_streaming_dout his
    exact ⟨⟨t, ht, hdout, hdvalid, hphase⟩, u, hu, hudout, hudvalid, huphase⟩

end Sys2Proof.Machine
end

section
/-!
Fault entry (R124): the one way a step outside `FAULT` ends in it is `State.raise`, and what `STATUS` (R19) shows of the
two registers that it writes.
-/
namespace Sys2Proof.Machine

variable {s t : State}

/-! ### The two fields of the status word -/

theorem State.status_phaseField (s : State) : s.status.extractLsb' 0 2 = s.phase.code := by
  ext k hk
  simp [State.status, hk, show k < 4 by omega, show k < 8 by omega]

theorem State.status_causeField (s : State) : s.status.extractLsb' 4 4 = s.cause.code := by
  ext k hk
  have hphase : s.phase.code.getLsbD (4 + k) = false := BitVec.getLsbD_of_ge _ _ (by omega)
  simp [State.status, hk, hphase, show 4 + k - 2 ≠ 0 by omega, show 4 + k < 8 by omega]

/-! ### The steps into FAULT -/

theorem exec_enters_fault {i : Instr} (hlive : s.phase ≠ .fault) (hexec : exec i s = .next t) (hfault : t.phase = .fault) :
    t = s.raise .useAfterFinal := by
  rcases exec_cases i s with ⟨u, hu, -, hrun, -⟩ | ⟨hraise, -⟩ | ⟨-, hthrown⟩
  · obtain rfl : u = t := by simpa [hu] using hexec
    exact absurd hfault hrun
  · simpa [hraise, eq_comm] using hexec
  · exact absurd hthrown hlive

/-- The two faults of R121, and no other way in. -/
theorem step_enters_fault (hlive : s.phase ≠ .fault) (hstep : step s = .next t) (hfault : t.phase = .fault) :
    ∃ code, (code = .illegalCommand ∨ code = .useAfterFinal) ∧ t = s.raise code := by
  rcases step_cases hstep with ⟨i, rest, -, -, hexec⟩ | ⟨hdr, -, -, hraise⟩ | ⟨b, rest, hthrown, -⟩ | ⟨rest, -, hreset⟩
  · exact ⟨_, .inr rfl, exec_enters_fault hlive hexec hfault⟩
  · exact ⟨_, .inl rfl, hraise⟩
  · exact absurd hthrown hlive
  · simp [hreset] at hfault

/-- Settles O11: the step is `State.raise` with one of the two codes, and the two fields of `STATUS` read what it
wrote. -/
theorem faultEntryWritesOnlyCauseAndPhase : Obligations.FaultEntryWritesOnlyCauseAndPhase := by
  intro s t hlive hstep hfault
  obtain ⟨code, hcode, rfl⟩ := step_enters_fault hlive hstep hfault
  exact ⟨hcode, rfl, State.status_phaseField _, State.status_causeField _⟩

end Sys2Proof.Machine
end

section
/-!
The decoder inverts the encoder (R50 to R56): what each outcome of `decode` says of the bytes, one lemma per outcome.
-/
namespace Sys2Proof

/-! ### Headers as numbers -/

/-- The number of the header that a row of the opcode map stands for (R54). -/
def Header.number : Header → Nat
  | .init => 0x1000
  | .update len => 0x2000 + len.toNat
  | .final => 0x3000
  | .peek => 0x4000

/-- The opcode map, row by row: a header decodes to a row exactly when it has that row's number. -/
theorem decodeHeader_eq_some_iff (hdr : BitVec 16) (h : Header) :
    decodeHeader hdr = some h ↔ hdr.toNat = h.number := by
  rw [decodeHeader_eq_ite_toNat]
  cases h with
  | update len =>
    have hlt := len.isLt
    simp only [Header.number]
    split_ifs <;> simp [← BitVec.toNat_inj] <;> omega
  | init | final | peek =>
    simp only [Header.number]
    split_ifs <;> simp <;> omega

theorem headerBytes_headerWord (b0 b1 : Byte) : headerBytes (headerWord b0 b1) = [b0, b1] := by
  have h0 := b0.isLt
  have h1 := b1.isLt
  have hhigh : (headerWord b0 b1).extractLsb' 8 8 = b0 := by
    apply BitVec.eq_of_toNat_eq
    rw [BitVec.extractLsb'_toNat, toNat_headerWord, Nat.shiftRight_eq_div_pow]
    omega
  have hlow : (headerWord b0 b1).extractLsb' 0 8 = b1 := by
    apply BitVec.eq_of_toNat_eq
    rw [BitVec.extractLsb'_toNat, toNat_headerWord, Nat.shiftRight_zero]
    omega
  rw [headerBytes, hhigh, hlow]

theorem cons_cons_eq_headerBytes_append (b0 b1 : Byte) (tail : List Byte) :
    b0 :: b1 :: tail = headerBytes (headerWord b0 b1) ++ tail := by
  rw [headerBytes_headerWord]
  rfl

theorem toNat_encodeHeader_update {p : List Byte} (h : p.length ≤ 4095) :
    (encodeHeader (.update p)).toNat = 0x2000 + p.length := by
  have hor : 2 ^ 13 ||| p.length = 2 ^ 13 + p.length := by
    simpa using (Nat.two_pow_add_eq_or_of_lt (show p.length < 2 ^ 13 by omega) 1).symm
  have hmod : p.length % 2 ^ 16 = p.length := Nat.mod_eq_of_lt (by omega)
  rw [encodeHeader, BitVec.toNat_or, BitVec.toNat_ofNat, hmod]
  exact hor

/-! ### The outcomes of the decoder -/

theorem decode_encode_append (i : Instr) (rest : List Byte) (hi : i.wf = true) :
    decode (encode i ++ rest) = .command i rest := by
  rw [encode, List.append_assoc, decode_header]
  cases i with
  | init | final | peek => rfl
  | update p =>
    have hp : p.length ≤ 4095 := (wf_update p).mp hi
    have hlen : (BitVec.ofNat 12 p.length).toNat = p.length := by
      rw [BitVec.toNat_ofNat]
      exact Nat.mod_eq_of_lt (by omega)
    have hrow : decodeHeader (encodeHeader (.update p)) = some (.update (BitVec.ofNat 12 p.length)) := by
      rw [decodeHeader_eq_some_iff, toNat_encodeHeader_update hp, Header.number, hlen]
    rw [hrow]
    simp [decodeBody, encodePayload, hlen]

/-- A header and what stands behind it, when they are a whole command, are its encoding and the rest. -/
theorem encode_of_decodeBody {hdr : BitVec 16} {h : Header} {tail rest : List Byte} {i : Instr}
    (hrow : hdr.toNat = h.number) (hbody : decodeBody h tail = .command i rest) :
    headerBytes hdr ++ tail = encode i ++ rest ∧ i.wf = true := by
  cases h with
  | update len =>
    have hlt := len.isLt
    rw [decodeBody] at hbody
    split_ifs at hbody with hall
    obtain ⟨rfl, rfl⟩ : .update (tail.take len.toNat) = i ∧ tail.drop len.toNat = rest := by simpa using hbody
    have hlen : (tail.take len.toNat).length = len.toNat := by simp [hall]
    have hhdr : hdr = encodeHeader (.update (tail.take len.toNat)) := by
      apply BitVec.eq_of_toNat_eq
      rw [hrow, toNat_encodeHeader_update (by omega), hlen, Header.number]
    refine ⟨?_, (wf_update _).mpr (by omega)⟩
    rw [encode, ← hhdr, encodePayload, List.append_assoc, List.take_append_drop]
  | init | final | peek =>
    have hhdr : hdr = encodeHeader i := by
      cases hbody
      exact BitVec.eq_of_toNat_eq hrow
    cases hbody
    exact ⟨hhdr ▸ rfl, rfl⟩

theorem decode_eq_command_iff {bs : List Byte} {i : Instr} {rest : List Byte} :
    decode bs = .command i rest ↔ bs = encode i ++ rest ∧ i.wf = true := by
  refine ⟨fun h => ?_, fun ⟨hbs, hi⟩ => hbs ▸ decode_encode_append i rest hi⟩
  match bs with
  | [] | [_] => cases h
  | b0 :: b1 :: tail =>
    rw [cons_cons_eq_headerBytes_append] at h ⊢
    rw [decode_header] at h
    cases hd : decodeHeader (headerWord b0 b1) with
    | none => simp [hd] at h
    | some row => exact encode_of_decodeBody ((decodeHeader_eq_some_iff _ _).mp hd) (by simpa [hd] using h)

theorem decodeBody_ne_illegal (h : Header) (tail : List Byte) (hdr : BitVec 16) : decodeBody h tail ≠ .illegal hdr := by
  cases h with
  | update len =>
    rw [decodeBody]
    split <;> simp
  | init | final | peek => simp [decodeBody]

theorem decode_eq_illegal_iff {bs : List Byte} {hdr : BitVec 16} :
    decode bs = .illegal hdr ↔ decodeHeader hdr = none ∧ ∃ tail, bs = headerBytes hdr ++ tail := by
  refine ⟨fun h => ?_, fun ⟨hnone, tail, hbs⟩ => by rw [hbs, decode_header, hnone]; rfl⟩
  match bs with
  | [] | [_] => cases h
  | b0 :: b1 :: tail =>
    rw [cons_cons_eq_headerBytes_append] at h ⊢
    rw [decode_header] at h
    cases hd : decodeHeader (headerWord b0 b1) with
    | none =>
      obtain rfl : headerWord b0 b1 = hdr := by simpa [hd] using h
      exact ⟨hd, tail, rfl⟩
    | some row => exact absurd (by simpa [hd] using h) (decodeBody_ne_illegal row tail hdr)

/-- No whole command and no illegal header: the bytes begin a command that has not wholly arrived (R58). -/
def Incomplete (bs : List Byte) : Prop := decode bs = .needHeader ∨ ∃ n, decode bs = .needPayload n

/-- Behind the header of a row that asks for `n` payload bytes fewer have arrived; only the row of `UPDATE` asks. -/
theorem incomplete_cons_cons_iff (b0 b1 : Byte) (tail : List Byte) :
    Incomplete (b0 :: b1 :: tail) ↔
      ∃ len : BitVec 12, decodeHeader (headerWord b0 b1) = some (.update len) ∧ tail.length < len.toNat := by
  rw [Incomplete, decode]
  cases decodeHeader (headerWord b0 b1) with
  | none => simp
  | some row =>
    cases row with
    | update len =>
      simp only [decodeBody, Option.some.injEq, Header.update.injEq, exists_eq_left']
      split_ifs with hall
      · simpa using hall
      · simpa using hall
    | init | final | peek => simp [decodeBody]

theorem incomplete_iff (bs : List Byte) :
    Incomplete bs ↔
      bs.length < 2 ∨
      ∃ b0 b1 tail, bs = b0 :: b1 :: tail ∧ b0.toNat / 16 = 2 ∧ tail.length < b0.toNat % 16 * 256 + b1.toNat := by
  match bs with
  | [] | [_] => simp [Incomplete, decode]
  | b0 :: b1 :: tail =>
    have h0 := b0.isLt
    have h1 := b1.isLt
    rw [incomplete_cons_cons_iff]
    simp only [decodeHeader_eq_some_iff, toNat_headerWord, Header.number]
    constructor
    · rintro ⟨len, hrow, hshort⟩
      have hlt := len.isLt
      exact .inr ⟨b0, b1, tail, rfl, by omega, by omega⟩
    · rintro (hlt | ⟨c0, c1, cs, heq, hop, hshort⟩)
      · simp at hlt
      · obtain ⟨rfl, rfl, rfl⟩ : b0 = c0 ∧ b1 = c1 ∧ tail = cs := by simpa using heq
        have hlen : b0.toNat % 16 * 256 + b1.toNat < 2 ^ 12 := by omega
        refine ⟨BitVec.ofNatLT _ hlen, ?_, ?_⟩
        · rw [BitVec.toNat_ofNatLT]
          omega
        · rwa [BitVec.toNat_ofNatLT]

theorem decode_append_of_command {bs more rest : List Byte} {i : Instr} (h : decode bs = .command i rest) :
    decode (bs ++ more) = .command i (rest ++ more) := by
  obtain ⟨rfl, hi⟩ := decode_eq_command_iff.mp h
  rw [List.append_assoc, decode_encode_append i _ hi]

theorem decode_append_of_illegal {bs more : List Byte} {hdr : BitVec 16} (h : decode bs = .illegal hdr) :
    decode (bs ++ more) = .illegal hdr := by
  obtain ⟨hnone, tail, rfl⟩ := decode_eq_illegal_iff.mp h
  exact decode_eq_illegal_iff.mpr ⟨hnone, tail ++ more, List.append_assoc _ _ _⟩

/-- A proper part of an encoding is incomplete: had it decoded, so would the whole have, with bytes left. -/
theorem incomplete_of_encode_eq_append {i : Instr} {arrived missing : List Byte} (hi : i.wf = true)
    (h : encode i = arrived ++ missing) (hne : missing ≠ []) : Incomplete arrived := by
  have hwhole : decode (arrived ++ missing) = .command i [] := by
    rw [← h, ← List.append_nil (encode i), decode_encode_append i [] hi]
  cases hd : decode arrived with
  | command j rest =>
    rw [decode_append_of_command hd] at hwhole
    simp [hne] at hwhole
  | illegal hdr =>
    rw [decode_append_of_illegal hd] at hwhole
    cases hwhole
  | needHeader => exact .inl hd
  | needPayload n => exact .inr ⟨n, hd⟩

/-! ### The statements about the command stream -/

/-- Settles O3: the header of each command decodes to its row, and the row of `UPDATE` takes its payload. -/
theorem decodeOfEncodeIsTheCommand : Obligations.DecodeOfEncodeIsTheCommand := decode_encode_append

/-- Settles O4: `decode_eq_command_iff` read from left to right. -/
theorem onlyTheEncodingDecodesToACommand : Obligations.OnlyTheEncodingDecodesToACommand := fun _ _ _ h =>
  decode_eq_command_iff.mp h

/-- Settles O5: bytes that decode begin with an encoding or with an illegal header, and so do the longer ones. -/
theorem growingStreamKeepsWhatIsDecoded : Obligations.GrowingStreamKeepsWhatIsDecoded := fun _ _ =>
  ⟨fun _ _ => decode_append_of_command, fun _ => decode_append_of_illegal⟩

/-- Settles O6: eleven closed byte sequences. -/
theorem sampleWordsDecode : Obligations.SampleWordsDecode := by
  unfold Obligations.SampleWordsDecode
  decide

end Sys2Proof
end

section
/-!
One step of the engine (R58, R123 to R126): from the bytes presented to the meaning that runs, the order of admission, the
wait for an incomplete command, and what every step can have done.
-/
namespace Sys2Proof.Machine

variable {s t : State} {i : Instr}

/-! ### What a meaning answers -/

theorem next_unique {x : Host.Outcome State Fault Refusal} (hs : x = .next s) (ht : x = .next t) : s = t :=
  Host.Outcome.next.inj (hs.symm.trans ht)

theorem exec_done (hdone : s.phase = .done) (hi : i ≠ .init) : exec i s = .next (s.raise .useAfterFinal) := by
  rcases exec_cases i s with ⟨_, -, hrun, -⟩ | ⟨hraise, -⟩ | ⟨-, hfault⟩
  · simp [hdone, hi] at hrun
  · exact hraise
  · simp [hdone] at hfault

theorem exec_answers_next (i : Instr) (s : State) : ∃ t, exec i s = .next t := by
  rcases exec_cases i s with ⟨t, ht, -⟩ | ⟨ht, -⟩ | ⟨ht, -⟩ <;> exact ⟨_, ht⟩

/-! ### The step on a command and on a part of one -/

/-- The bytes that the engine can decode, when the host has presented a well-formed command. -/
theorem decode_presented {events : List HostEvent} (hi : i.wf = true) (hin : s.input = (encode i).map .byte ++ events) :
    decode (streamBytes s.input) = .command i (streamBytes events) := by
  rw [hin, streamBytes_append, decode_encode_append i _ hi]

theorem step_presented {events : List HostEvent} (hi : i.wf = true) (hlive : s.phase ≠ .fault)
    (hin : s.input = (encode i).map .byte ++ events) : step s = exec i s :=
  step_command hlive (decode_presented hi hin)

theorem await_of_reset {rest : List HostEvent} (h : behindReset s.input = some rest) :
    s.await = .next (State.afterReset rest) := by simp [State.await, h]

theorem await_of_no_reset (h : behindReset s.input = none) : s.await = .refused .awaitingHost := by
  simp [State.await, h]

theorem step_incomplete (hlive : s.phase ≠ .fault) (h : Incomplete (streamBytes s.input)) : step s = s.await := by
  rcases h with hhdr | ⟨n, hpay⟩
  · exact step_needHeader hlive hhdr
  · exact step_needPayload hlive hpay

/-- Outside `FAULT` what has arrived is incomplete, or the step answers a next state. -/
theorem incomplete_or_step_next (hlive : s.phase ≠ .fault) :
    Incomplete (streamBytes s.input) ∨ ∃ t, step s = .next t := by
  cases hd : decode (streamBytes s.input) with
  | command i rest => exact .inr (by rw [step_command hlive hd]; exact exec_answers_next i s)
  | illegal hdr => exact .inr ⟨_, step_illegal hlive hd⟩
  | needHeader => exact .inl (.inl hd)
  | needPayload n => exact .inl (.inr ⟨n, hd⟩)

theorem step_waits_iff_incomplete (hlive : s.phase ≠ .fault) (hnone : behindReset s.input = none) :
    step s = .refused .awaitingHost ↔ Incomplete (streamBytes s.input) := by
  refine ⟨fun hwait => ?_, fun h => (step_incomplete hlive h).trans (await_of_no_reset hnone)⟩
  rcases incomplete_or_step_next hlive with h | ⟨t, ht⟩
  · exact h
  · simp [ht] at hwait

/-- A proper part of a command waits. -/
theorem step_part_waits {arrived missing : List Byte} (hi : i.wf = true) (hlive : s.phase ≠ .fault)
    (hpart : encode i = arrived ++ missing) (hne : missing ≠ []) (hin : s.input = arrived.map .byte) :
    step s = .refused .awaitingHost := by
  have hin' : s.input = arrived.map .byte ++ [] := by rw [hin, List.append_nil]
  rw [step_waits_iff_incomplete hlive (by rw [hin', behindReset_append]; rfl), hin', streamBytes_append, streamBytes_nil,
    List.append_nil]
  exact incomplete_of_encode_eq_append hi hpart hne

theorem present_missing_input {arrived missing : List Byte} (hpart : encode i = arrived ++ missing)
    (hin : s.input = arrived.map .byte) (events : List HostEvent) :
    (s.present (missing.map .byte ++ events)).input = (encode i).map .byte ++ events := by
  rw [State.present_input, hin, hpart, List.map_append, List.append_assoc]

/-! ### The step in FAULT -/

theorem step_fault_nil (hfault : s.phase = .fault) (hin : s.input = []) : step s = .refused .awaitingHost := by
  simp [step, hfault, State.stepInFault, hin]

theorem step_fault_waits_iff (hfault : s.phase = .fault) : step s = .refused .awaitingHost ↔ s.input = [] := by
  refine ⟨fun hwait => ?_, step_fault_nil hfault⟩
  match hin : s.input with
  | [] => rfl
  | .byte b :: rest => simp [step_fault_byte hfault hin] at hwait
  | .rst :: rest => simp [step_rst hin] at hwait

theorem step_answers_next_of_reset {rest : List HostEvent} (h : behindReset s.input = some rest) :
    ∃ t, step s = .next t := by
  by_cases hfault : s.phase = .fault
  · match hin : s.input with
    | [] => simp [hin, behindReset] at h
    | .byte b :: rest => exact ⟨_, step_fault_byte hfault hin⟩
    | .rst :: rest => exact ⟨_, step_rst hin⟩
  · rcases incomplete_or_step_next hfault with hpart | hnext
    · exact ⟨_, (step_incomplete hfault hpart).trans (await_of_reset h)⟩
    · exact hnext

/-- Only a reset at the head of the input leaves `FAULT` (R126). -/
theorem step_leaves_fault (hfault : s.phase = .fault) (hstep : step s = .next t) (hleft : t.phase ≠ .fault) :
    ∃ rest, s.input = .rst :: rest ∧ t = State.afterReset rest := by
  match hin : s.input with
  | [] => simp [step_fault_nil hfault hin] at hstep
  | .byte b :: rest =>
    obtain rfl := next_unique (step_fault_byte hfault hin) hstep
    exact absurd hfault hleft
  | .rst :: rest =>
    obtain rfl := next_unique (step_rst hin) hstep
    exact ⟨rest, rfl, rfl⟩

theorem run_succ (h : step s = .next t) (k : Nat) : core.run (k + 1) s = core.run k t := by
  have hcore : core.step s = .next t := h
  simp only [Host.Core.run, hcore]

theorem run_fault_discards (bs : List Byte) (rest : List HostEvent) (hfault : s.phase = .fault)
    (hin : s.input = bs.map .byte ++ rest) : core.run bs.length s = .next { s with input := rest } := by
  induction bs generalizing s with
  | nil =>
    obtain rfl : s.input = rest := hin
    rfl
  | cons b bs ih =>
    rw [List.length_cons, run_succ (step_fault_byte hfault hin)]
    exact ih hfault rfl

/-! ### Every step -/

theorem exec_runs_of_live (hlive : s.phase ≠ .fault) (hexec : exec i s = .next t) :
    (t.phase ≠ .fault ∧ t.cpos = s.cpos + (encode i).length ∧ t.input = s.input.drop (encode i).length) ∨
      t = s.raise .useAfterFinal := by
  by_cases hfault : t.phase = .fault
  · exact .inr (exec_enters_fault hlive hexec hfault)
  · rw [length_encode]
    rcases exec_cases i s with ⟨u, hu, -, -, -, hcpos, hinput⟩ | ⟨hraise, -⟩ | ⟨-, hthrown⟩
    · obtain rfl := next_unique hu hexec
      exact .inl ⟨hfault, hcpos, hinput⟩
    · exact .inr (next_unique hexec hraise)
    · exact absurd hthrown hlive

/-- A decoded command has wholly arrived. -/
theorem length_encode_le_of_decode {rest : List Byte} (h : decode (streamBytes s.input) = .command i rest) :
    (encode i).length ≤ s.input.length := by
  have hlen := length_streamBytes_le s.input
  rw [(decode_eq_command_iff.mp h).1, List.length_append] at hlen
  omega

theorem two_le_length_encode (i : Instr) : 2 ≤ (encode i).length := by
  rw [length_encode, commandLength]
  omega

/-- In no phase does `UPDATE` write `dout` or `dvalid` (R18). -/
theorem exec_update_keeps_digest {p : List Byte} (hexec : exec (.update p) s = .next t) :
    t.dout = s.dout ∧ t.dvalid = s.dvalid := by
  cases hp : s.phase with
  | active =>
    obtain rfl := next_unique (exec_update p hp) hexec
    simp
  | done =>
    obtain rfl := next_unique (exec_done hp (by simp)) hexec
    simp
  | fault =>
    obtain rfl := next_unique (exec_fault _ hp) hexec
    simp

/-! ### The statements about the step -/

/-- Settles O7: `step_command`. -/
theorem stepRunsTheDecodedCommand : Obligations.StepRunsTheDecodedCommand := fun _ _ _ => step_command

/-- Settles O8: the encoding at the head of the input decodes to its command. -/
theorem stepRunsThePresentedCommand : Obligations.StepRunsThePresentedCommand := fun _ _ _ => step_presented

/-- Settles O37: of the cases of a meaning only the raise is left. -/
theorem commandsAfterFinalRaiseUseAfterFinal : Obligations.CommandsAfterFinalRaiseUseAfterFinal := fun _ _ => exec_done

/-- Settles O38: a meaning in `FAULT` drops as many bytes as its command is long. -/
theorem commandsInFaultAreThrownAway : Obligations.CommandsInFaultAreThrownAway := by
  intro s i hfault
  rw [length_encode]
  exact exec_fault i hfault

/-- Settles O9: one lemma for each clause. -/
theorem admissionOrder : Obligations.AdmissionOrder := by
  refine fun s => ⟨fun hfault b rest => step_fault_byte hfault, fun hlive h => step_illegal hlive,
    fun hlive rest => step_command hlive, fun hdone i rest hi hd => ?done, fun hactive i rest => ?active⟩
  case done => exact (step_command (by simp [hdone]) hd).trans (exec_done hdone hi)
  case active => exact step_command (by simp [hactive])

/-- Settles O10: the part waits, and the whole is a command in `DONE`. -/
theorem updateInDoneFaultsOncePresented : Obligations.UpdateInDoneFaultsOncePresented := by
  intro s payload arrived missing events hwf hdone hpart hne hin
  have hlive : s.phase ≠ .fault := by simp [hdone]
  have hwhole := present_missing_input hpart hin events
  have hruns : step (s.present (missing.map .byte ++ events)) = exec (.update payload) _ :=
    step_presented hwf hlive hwhole
  refine ⟨step_part_waits hwf hlive hpart hne hin, ?whole⟩
  case whole =>
    rw [← hwhole]
    exact hruns.trans (exec_done hdone (by simp))

/-- Settles O12: an induction over the bytes, and `step_leaves_fault`. -/
theorem faultPhaseDiscardsEveryByte : Obligations.FaultPhaseDiscardsEveryByte :=
  ⟨fun _ bs rest => run_fault_discards bs rest, fun _ _ => step_leaves_fault⟩

/-- Settles O14: the bytes ahead of the reset are the part, which is incomplete. -/
theorem resetAbandonsAPartialCommand : Obligations.ResetAbandonsAPartialCommand := by
  intro s part rest hlive hpart hin
  have hbytes : streamBytes s.input = part := by rw [hin, streamBytes_append, streamBytes_rst, List.append_nil]
  have hreset : behindReset s.input = some rest := by rw [hin, behindReset_append]; rfl
  exact (step_incomplete hlive (hbytes ▸ hpart)).trans (await_of_reset hreset)

/-- Settles O15: outside `FAULT` the step waits exactly on incomplete bytes, which `incomplete_iff` spells out. -/
theorem incompleteCommandTakesNoStep : Obligations.IncompleteCommandTakesNoStep :=
  ⟨fun _ hlive hnone => (step_waits_iff_incomplete hlive hnone).trans (incomplete_iff _),
    fun _ => step_fault_waits_iff, fun _ _ => step_answers_next_of_reset⟩

/-- Settles O16: the part waits, and the whole is presented. -/
theorem waitingCommandRunsOncePresented : Obligations.WaitingCommandRunsOncePresented := by
  intro s i arrived missing events hwf hlive hpart hne hin
  exact ⟨step_part_waits hwf hlive hpart hne hin, step_presented hwf hlive (present_missing_input hpart hin events)⟩

/-- Settles O17: the cases of `step_cases`, where a command ran or raised. -/
theorem everyStepIsACommandAFaultADiscardOrAReset : Obligations.EveryStepIsACommandAFaultADiscardOrAReset := by
  intro s t hstep
  rcases step_cases hstep with ⟨i, rest, hlive, hd, hexec⟩ | ⟨hdr, hlive, -, hraise⟩ | hdiscard | hreset
  · rcases exec_runs_of_live hlive hexec with ⟨hrun, hcpos, hinput⟩ | hraise
    · exact .inl ⟨i, rest, hlive, hd, hexec, hrun, hcpos, hinput⟩
    · exact .inr (.inl ⟨.useAfterFinal, hlive, by simp, hraise⟩)
  · exact .inr (.inl ⟨.illegalCommand, hlive, by simp, hraise⟩)
  · exact .inr (.inr (.inl hdiscard))
  · exact .inr (.inr (.inr hreset))

/-- Settles O18: a command has at least two bytes and all of them have arrived; a discard takes one, a reset itself. -/
theorem everyStepTakesInputOrEntersFault : Obligations.EveryStepTakesInputOrEntersFault := by
  intro s t hstep
  rcases everyStepIsACommandAFaultADiscardOrAReset s t hstep with
    ⟨i, rest, -, hd, -, -, -, hinput⟩ | ⟨c, hlive, -, rfl⟩ | ⟨b, rest, -, hin, rfl⟩ | ⟨rest, hreset, rfl⟩
  · have htwo := two_le_length_encode i
    have hall := length_encode_le_of_decode hd
    rw [hinput, List.length_drop]
    omega
  · exact .inr ⟨rfl, hlive, rfl⟩
  · simp [hin]
  · exact .inl (length_behindReset_lt hreset)

/-- Settles O19: in `DONE` a command that does not raise is `INIT`, which answers `ACTIVE`. -/
theorem onlyInitOrResetRevivesDone : Obligations.OnlyInitOrResetRevivesDone := by
  intro s t hdone hstep
  rcases step_cases hstep with ⟨i, rest, -, hd, hexec⟩ | ⟨hdr, -, -, rfl⟩ | ⟨b, rest, hfault, -⟩ | ⟨rest, hreset, rfl⟩
  · by_cases hi : i = .init
    · subst hi
      obtain rfl := next_unique (exec_init (by simp [hdone])) hexec
      exact ⟨by simp, fun _ => .inl ⟨rest, hd, hexec⟩⟩
    · obtain rfl := next_unique (exec_done hdone hi) hexec
      simp
  · simp
  · simp [hdone] at hfault
  · exact ⟨by simp, fun _ => .inr ⟨rest, hreset, rfl⟩⟩

/-- Settles O20: of the four things a step can be, a fault entry and a discard keep both registers, and a command that
changes one is no `UPDATE`. -/
theorem onlyInitFinalPeekResetWriteTheDigestOutput : Obligations.OnlyInitFinalPeekResetWriteTheDigestOutput := by
  intro s t hstep hchanged
  rcases everyStepIsACommandAFaultADiscardOrAReset s t hstep with
    ⟨i, rest, hlive, hd, hexec, hrun, -⟩ | ⟨c, -, -, rfl⟩ | ⟨b, rest, -, -, rfl⟩ | hreset
  · refine .inl ⟨i, rest, hlive, hd, hexec, hrun, ?_⟩
    cases i with
    | update p => simp [exec_update_keeps_digest hexec] at hchanged
    | init | final | peek => simp
  · simp at hchanged
  · simp at hchanged
  · exact .inr hreset

end Sys2Proof.Machine
end

section
/-!
The invariant of the interface registers (R17 to R19): each operation that a step ends in keeps it.
-/
namespace Sys2Proof.Machine

variable {s t : State} {i : Instr}

theorem State.Inv.cause_eq_none (h : s.Inv) (hlive : s.phase ≠ .fault) : s.cause = .none := by
  by_contra hcause
  exact hlive (h.cause_iff.mp hcause)

theorem State.Inv.of_live (hcause : s.cause = .none) (hlive : s.phase ≠ .fault)
    (hdone : s.phase = .done → s.dvalid = true) (hzero : s.dvalid = false → s.dout = zeroBlock) : s.Inv where
  cause_iff := by simp [hcause, hlive]
  done_valid := hdone
  misuse_valid := by simp [hcause]
  invalid_zero := hzero

/-- Only the interface registers decide the invariant. -/
theorem State.Inv.congr (h : s.Inv) (hcause : t.cause = s.cause) (hphase : t.phase = s.phase)
    (hdvalid : t.dvalid = s.dvalid) (hdout : t.dout = s.dout) : t.Inv where
  cause_iff := by rw [hcause, hphase, h.cause_iff]
  done_valid := by rw [hphase, hdvalid]; exact h.done_valid
  misuse_valid := by rw [hcause, hdvalid]; exact h.misuse_valid
  invalid_zero := by rw [hdvalid, hdout]; exact h.invalid_zero

theorem State.Inv.raise (h : s.Inv) {code : Cause} (hcode : code ≠ .none)
    (hmisuse : code = .useAfterFinal → s.dvalid = true) : (s.raise code).Inv where
  cause_iff := by simp [hcode]
  done_valid := by simp
  misuse_valid := hmisuse
  invalid_zero := h.invalid_zero

theorem State.afterReset_inv (rest : List HostEvent) : (State.afterReset rest).Inv :=
  State.Inv.of_live rfl (by simp) (by simp) fun _ => rfl

/-- `FINAL` and `PEEK` set `dvalid`, `INIT` zeroes `dout`, `UPDATE` writes neither. -/
theorem State.Inv.exec_active (h : s.Inv) (hactive : s.phase = .active) (hexec : exec i s = .next t) : t.Inv := by
  have hcause : s.cause = .none := h.cause_eq_none (by simp [hactive])
  cases i with
  | init =>
    obtain rfl := next_unique (exec_init (by simp [hactive])) hexec
    exact .of_live hcause (by simp) (by simp) fun _ => rfl
  | update p =>
    obtain rfl := next_unique (exec_update p hactive) hexec
    exact h.congr (absorb_cause p) (absorb_phase p) (absorb_dvalid p) (absorb_dout p)
  | final =>
    obtain rfl := next_unique (exec_final hactive) hexec
    exact .of_live hcause (by simp) (fun _ => rfl) (by simp)
  | peek =>
    obtain rfl := next_unique (exec_peek hactive) hexec
    exact .of_live hcause (by simp [hactive]) (fun _ => rfl) (by simp)

theorem State.Inv.exec (h : s.Inv) (hexec : exec i s = .next t) : t.Inv := by
  cases hp : s.phase with
  | active => exact h.exec_active hp hexec
  | done =>
    by_cases hi : i = .init
    · subst hi
      obtain rfl := next_unique (exec_init (by simp [hp])) hexec
      exact .of_live (h.cause_eq_none (by simp [hp])) (by simp) (by simp) fun _ => rfl
    · obtain rfl := next_unique (exec_done hp hi) hexec
      exact h.raise (by simp) fun _ => h.done_valid hp
  | fault =>
    obtain rfl := next_unique (exec_fault i hp) hexec
    exact h.congr rfl rfl rfl rfl

/-- Settles O21: a command keeps the invariant, and so do a fault entry, a discard and a reset. -/
theorem everyStepKeepsTheInvariant : Obligations.EveryStepKeepsTheInvariant := by
  intro s t h hstep
  rcases step_cases hstep with ⟨i, rest, -, -, hexec⟩ | ⟨hdr, -, -, rfl⟩ | ⟨b, rest, -, -, rfl⟩ | ⟨rest, -, rfl⟩
  · exact h.exec hexec
  · exact h.raise (by simp) (by simp)
  · exact h.congr rfl rfl rfl rfl
  · exact State.afterReset_inv rest

/-- Settles O22: the reset state is a reset with nothing behind it. -/
theorem resetMeetsTheInvariant : Obligations.ResetMeetsTheInvariant := State.afterReset_inv []

/-! ### The status word -/

theorem State.status_dvalidBit (s : State) : s.status.getLsbD 2 = s.dvalid := by
  simp [State.status]

theorem State.status_bit3 (s : State) : s.status.getLsbD 3 = false := by
  simp [State.status]

/-- `STATUS` is the number whose fields are `cause`, `dvalid` and `phase` (R19). -/
theorem State.status_toNat (s : State) :
    s.status.toNat = 16 * s.cause.code.toNat + 4 * s.dvalid.toNat + s.phase.code.toNat := by
  rw [State.status]
  cases s.phase <;> cases s.cause <;> cases s.dvalid <;> rfl

/-- The values of `cause`, `dvalid` and `phase` that the invariant leaves. -/
theorem State.Inv.registers (h : s.Inv) :
    (s.phase = .active ∧ s.cause = .none) ∨ (s.phase = .done ∧ s.cause = .none ∧ s.dvalid = true) ∨
    (s.phase = .fault ∧ s.cause = .illegalCommand) ∨
    (s.phase = .fault ∧ s.cause = .useAfterFinal ∧ s.dvalid = true) := by
  cases hp : s.phase with
  | active => exact .inl ⟨rfl, h.cause_eq_none (by simp [hp])⟩
  | done => exact .inr (.inl ⟨rfl, h.cause_eq_none (by simp [hp]), h.done_valid hp⟩)
  | fault =>
    cases hc : s.cause with
    | none => exact absurd hc (h.cause_iff.mpr hp)
    | illegalCommand => exact .inr (.inr (.inl ⟨rfl, rfl⟩))
    | useAfterFinal => exact .inr (.inr (.inr ⟨rfl, rfl, h.misuse_valid hc⟩))

theorem State.Inv.status_mem (h : s.Inv) : s.status ∈ [0x00, 0x04, 0x05, 0x12, 0x16, 0x26] := by
  rcases h.registers with ⟨hp, hc⟩ | ⟨hp, hc, hv⟩ | ⟨hp, hc⟩ | ⟨hp, hc, hv⟩
  · rw [State.status, hp, hc]
    cases s.dvalid <;> decide
  · rw [State.status, hp, hc, hv]
    decide
  · rw [State.status, hp, hc]
    cases s.dvalid <;> decide
  · rw [State.status, hp, hc, hv]
    decide

/-- Settles O23: one lemma for each field, and the values by `State.Inv.registers`. -/
theorem statusWordFieldsAndValues : Obligations.StatusWordFieldsAndValues :=
  ⟨fun s => ⟨s.status_phaseField, s.status_dvalidBit, s.status_bit3, s.status_causeField, s.status_toNat⟩,
    fun _ h => h.status_mem⟩

end Sys2Proof.Machine
end

section
/-!
The table `S` (R31, R32): its 256 entries take every byte value, so no two of them are equal.
-/
namespace Sys2Proof.Machine

/-- A bit of the mask is set by an element that names it. -/
theorem testBit_foldl_or_two_pow {α : Type} (f : α → Nat) (l : List α) (m b : Nat) :
    (l.foldl (fun m a => m ||| 2 ^ f a) m).testBit b = true ↔ m.testBit b = true ∨ ∃ a ∈ l, f a = b := by
  induction l generalizing m with
  | nil => simp
  | cons a l ih => simp [ih, Nat.testBit_two_pow, or_assoc]

/-- The entries of `S`, each marked as a bit, mark all 256 byte values. -/
theorem sbox_marks_every_byte :
    (List.range 256).foldl (fun m n => m ||| 2 ^ (S (BitVec.ofNat 8 n)).toNat) 0 = 2 ^ 256 - 1 := by
  decide +kernel

theorem sbox_surjective : Function.Surjective S := by
  intro b
  have hmarked : (2 ^ 256 - 1).testBit b.toNat = true := by
    rw [Nat.testBit_two_pow_sub_one, decide_eq_true_iff]
    exact b.isLt
  rw [← sbox_marks_every_byte, testBit_foldl_or_two_pow] at hmarked
  rcases hmarked with hzero | ⟨n, -, hn⟩
  · simp at hzero
  · exact ⟨BitVec.ofNat 8 n, BitVec.eq_of_toNat_eq hn⟩

theorem sbox_injective : Function.Injective S := Finite.injective_iff_surjective.mpr sbox_surjective

theorem sbox_ne_self (a : Byte) : S a ≠ a := by
  have hall : ∀ n < 256, S (BitVec.ofNat 8 n) ≠ BitVec.ofNat 8 n := by decide +kernel
  simpa using hall a.toNat a.isLt

theorem sbox_weighted_sum : ((List.range 256).map fun n => n * (S (BitVec.ofNat 8 n)).toNat).sum = 4177956 := by
  decide +kernel

/-- Settles O26: a map of the finitely many bytes onto themselves takes every value once. -/
theorem sboxIsAPermutation : Obligations.SboxIsAPermutation := by
  refine ⟨fun b => ?occurs, sbox_ne_self, sbox_weighted_sum⟩
  case occurs =>
    obtain ⟨a, ha⟩ := sbox_surjective b
    exact ⟨a, ha, fun a' ha' => sbox_injective (ha'.trans ha.symm)⟩

end Sys2Proof.Machine
end

section
/-!
The commands register by register: what each leaves as it was while the engine is live (R22), and the exact next states
of INIT (R90), of an UPDATE without payload (R57) and of PEEK (R109).
-/
namespace Sys2Proof.Machine

variable {s t : State} {i : Instr}

theorem writeBytes_nil (buffer : Block) (k : Nat) : writeBytes buffer k [] = buffer := rfl

theorem absorb_nil (s : State) : s.absorb [] = s := by
  have hc : s.count.toNat < 16 := s.count.isLt
  rw [absorb_of_lt [] (by simpa using hc), writeBytes_nil]
  simp

/-- Settles O31: `exec_init`. -/
theorem initStartsAFreshInstance : Obligations.InitStartsAFreshInstance := fun _ => exec_init

/-- Settles O33: `absorb_nil`, and the header's two bytes are taken. -/
theorem emptyUpdateIsTheNoOperation : Obligations.EmptyUpdateIsTheNoOperation := by
  intro s hactive
  rw [exec_update [] hactive, absorb_nil]
  rfl

/-- Settles O35: the block is `padded` by `eq_padded`, and `PEEK` shows what `finish` leaves in `state`. -/
theorem peekWritesOnlyTheDigestOutput : Obligations.PeekWritesOnlyTheDigestOutput := by
  intro s P hactive hP
  obtain rfl := eq_padded hP
  exact exec_peek hactive

/-- Settles O36: `FINAL` reads the hashing registers only, and `PEEK` writes none of them. -/
theorem peekDoesNotDisturbTheDigest : Obligations.PeekDoesNotDisturbTheDigest := by
  intro s hactive
  have hpeeked : (s.exhibit.consume 2).phase = .active := hactive
  exact ⟨_, _, _, exec_peek hactive, exec_final hpeeked, exec_final hactive, rfl, rfl, rfl, rfl, rfl⟩

theorem exec_active_cause (hactive : s.phase = .active) (hexec : exec i s = .next t) : t.cause = s.cause := by
  rcases exec_cases i s with ⟨u, hu, -, -, hcause, -⟩ | ⟨-, hdone, -⟩ | ⟨-, hfault⟩
  · obtain rfl := next_unique hu hexec
    exact hcause
  · simp [hactive] at hdone
  · simp [hactive] at hfault

/-- Settles O39: each command's next state, and of the padded block that `FINAL` leaves the bytes below `count`. -/
theorem commandFrames : Obligations.CommandFrames := by
  intro s t i hactive hexec
  refine ⟨exec_active_cause hactive hexec, ?update, ?final, ?peek⟩
  case update =>
    rintro p rfl
    obtain rfl := next_unique (exec_update p hactive) hexec
    simp
  case final =>
    rintro rfl
    obtain rfl := next_unique (exec_final hactive) hexec
    refine ⟨rfl, fun k hk => ?_⟩
    exact (getElem_padded _ _ _ k.isLt).trans (if_pos hk)
  case peek =>
    rintro rfl
    obtain rfl := next_unique (exec_peek hactive) hexec
    exact ⟨rfl, rfl, rfl, rfl, rfl⟩

end Sys2Proof.Machine
end

section
/-!
What a live engine holds, over any start: the bytes absorbed since `state` and `checksum` were a given pair (R92, R93).
Two engines that hold the same bytes over the same pair agree in `State.SameInstance` (R94), so that the ways to absorb the
same bytes need no comparison of their own.
-/
namespace Sys2Proof.Machine

variable {s t : State} {st ck : Block} {D : List Byte}

/-- The engine has absorbed exactly `D` since its hashing registers were `st` and `ck`: `State.Absorbed` for any start, the
phase aside. -/
structure State.Holds (s : State) (st ck : Block) (D : List Byte) : Prop where
  chain : (s.state, s.checksum) = hashBlocks st ck D (D.length / 16)
  count : s.count.toNat = D.length % 16
  tail : s.buffer.toList.take s.count.toNat = D.drop (16 * (D.length / 16))

/-- Every state holds its valid buffered bytes over its own hashing registers. -/
theorem State.holds_self (s : State) : s.Holds s.state s.checksum (s.buffer.toList.take s.count.toNat) := by
  have hc : s.count.toNat < 16 := s.count.isLt
  have hlen : (s.buffer.toList.take s.count.toNat).length = s.count.toNat := by simp; omega
  refine ⟨?chain, ?count, ?tail⟩
  case chain => rw [hlen, Nat.div_eq_of_lt hc, hashBlocks]
  case count => rw [hlen, Nat.mod_eq_of_lt hc]
  case tail => rw [hlen, Nat.div_eq_of_lt hc, Nat.mul_zero, List.drop_zero]

theorem State.Holds.sameInstance (hs : s.Holds st ck D) (ht : t.Holds st ck D) : s.SameInstance t := by
  obtain ⟨hstate, hck⟩ := Prod.mk.inj (hs.chain.trans ht.chain.symm)
  exact ⟨hstate, hck, BitVec.eq_of_toNat_eq (hs.count.trans ht.count.symm), hs.tail.trans ht.tail.symm⟩

theorem State.Holds.of_sameInstance (hs : s.Holds st ck D) (h : s.SameInstance t) : t.Holds st ck D := by
  obtain ⟨hstate, hck, hcount, htail⟩ := h
  exact ⟨by rw [← hstate, ← hck, hs.chain], by rw [← hcount, hs.count], by rw [← htail, hs.tail]⟩

theorem State.Holds.consume (h : s.Holds st ck D) (n : Nat) : (s.consume n).Holds st ck D := ⟨h.chain, h.count, h.tail⟩

theorem State.Holds.exhibit (h : s.Holds st ck D) : s.exhibit.Holds st ck D := ⟨h.chain, h.count, h.tail⟩

/-- `UPDATE` appends its payload (R93). -/
theorem State.Holds.absorb (h : s.Holds st ck D) (bytes : List Byte) : (s.absorb bytes).Holds st ck (D ++ bytes) := by
  have hcount := h.count
  have hpending : s.pending bytes = (D ++ bytes).drop (16 * (D.length / 16)) := by
    rw [State.pending, h.tail, drop_blocks_append]
  have hq : (D ++ bytes).length / 16 = D.length / 16 + (s.count.toNat + bytes.length) / 16 := by
    rw [List.length_append]
    omega
  refine ⟨?chain, ?count, ?tail⟩
  case chain => rw [hq, hashBlocks_add, hashBlocks_append, ← h.chain, ← hpending, absorb_hash]
  case count =>
    rw [absorb_count, List.length_append]
    omega
  case tail => rw [absorb_tail, hpending, List.drop_drop, hq, Nat.mul_add]

/-! ### The byte-serial form -/

theorem absorb_eq_fill_compress (bytes : List Byte) (h : s.count.toNat + bytes.length = 16) :
    s.absorb bytes = { (s.fill bytes).compress (s.fill bytes).buffer with count := 0 } := by
  have hdrop : bytes.drop (16 - s.count.toNat) = [] := List.drop_eq_nil_of_le (by omega)
  simp only [absorb_of_le bytes h.ge, hdrop]
  rfl

/-- R95's step is an `UPDATE` of one byte. -/
theorem absorbByte_eq_absorb (s : State) (b : Byte) : absorbByte s b = s.absorb [b] := by
  have hc : s.count.toNat < 16 := s.count.isLt
  have hlast : s.count = 15 ↔ s.count.toNat = 15 := by rw [← BitVec.toNat_inj]; rfl
  rw [absorbByte]
  split_ifs with hfull
  · have hfill : s.fill [b] = { s with buffer := s.buffer.setIfInBounds s.count.toNat b } := by
      rw [State.fill, show available [b].length s.count = 1 by rw [hfull]; rfl]
      rfl
    rw [absorb_eq_fill_compress [b] (by rw [hlast.mp hfull]; rfl), hfill]
  · have hroom : s.count.toNat + [b].length < 16 := by
      rw [hlast] at hfull
      rw [List.length_singleton]
      omega
    have hcount : s.count + 1 = BitVec.ofNat 4 (s.count.toNat + [b].length) := by
      apply BitVec.eq_of_toNat_eq
      rw [BitVec.toNat_add, BitVec.toNat_ofNat]
      rfl
    rw [absorb_of_lt [b] hroom, ← hcount]
    rfl

theorem State.Holds.foldl_absorbByte (h : s.Holds st ck D) (bytes : List Byte) :
    (bytes.foldl absorbByte s).Holds st ck (D ++ bytes) := by
  induction bytes generalizing s D with
  | nil => simpa using h
  | cons b bytes ih =>
    rw [List.foldl_cons, absorbByte_eq_absorb, List.append_cons]
    exact ih (h.absorb [b])

/-- Settles O41: both forms append the payload to what the state holds. -/
theorem byteSerialUpdateIsEquivalent : Obligations.ByteSerialUpdateIsEquivalent := by
  intro s bytes hactive
  exact ⟨_, exec_update bytes hactive,
    ((s.holds_self.absorb bytes).consume _).sameInstance (s.holds_self.foldl_absorbByte bytes)⟩

/-! ### Chunks of a payload -/

/-- Settles O40: both ways append `a ++ b`, and `UPDATE` writes none of the four other registers. -/
theorem chunkingInvariance : Obligations.ChunkingInvariance := by
  intro s a b hactive
  have ha := exec_update a hactive
  have hactive' : ((s.absorb a).consume (2 + a.length)).phase = .active := (absorb_phase a).trans hactive
  have hchunks := (((s.holds_self.absorb a).consume (2 + a.length)).absorb b).consume (2 + b.length)
  have hwhole := (s.holds_self.absorb (a ++ b)).consume (2 + (a ++ b).length)
  rw [List.append_assoc] at hchunks
  refine ⟨_, _, (execAll_cons ha).trans ((execAll_singleton _ _).trans (exec_update b hactive')),
    exec_update (a ++ b) hactive, hchunks.sameInstance hwhole, ?_⟩
  simp

/-! ### `UPDATE*` and `DIGEST` -/

/-- An `UPDATE` or a `PEEK` appends its payload. -/
theorem State.Holds.exec_streaming {i : Instr} (h : s.Holds st ck D) (hactive : s.phase = .active) (hi : Streaming i) :
    ∃ t, exec i s = .next t ∧ t.Holds st ck (D ++ encodePayload i) ∧ t.phase = .active := by
  rcases hi with rfl | ⟨p, rfl⟩
  · refine ⟨_, exec_peek hactive, ?_, hactive⟩
    rw [encodePayload, List.append_nil]
    exact h.exhibit.consume 2
  · exact ⟨_, exec_update p hactive, (h.absorb p).consume _, (absorb_phase p).trans hactive⟩

theorem State.Holds.execAll_streaming {is : List Instr} (h : s.Holds st ck D) (hactive : s.phase = .active)
    (his : ∀ i ∈ is, Streaming i) : ∃ t, execAll is s = .next t ∧ t.Holds st ck (D ++ messageOf is) := by
  induction is generalizing s D with
  | nil => exact ⟨s, rfl, by simpa [messageOf] using h⟩
  | cons i is ih =>
    obtain ⟨hi, his⟩ := List.forall_mem_cons.mp his
    obtain ⟨u, hu, huD, huactive⟩ := h.exec_streaming hactive hi
    rw [execAll_cons hu, messageOf_cons, ← List.append_assoc]
    exact ih huD huactive his

theorem splitUpdate_streaming (k : Nat) (m : List Byte) : ∀ i ∈ splitUpdate k m, Streaming i := by
  induction k generalizing m with
  | zero => simp [splitUpdate, Streaming]
  | succ k ih =>
    rw [splitUpdate]
    split_ifs
    · simp [Streaming]
    · exact List.forall_mem_cons.mpr ⟨.inr ⟨_, rfl⟩, ih _⟩

theorem messageOf_splitUpdate (k : Nat) (m : List Byte) : messageOf (splitUpdate k m) = m := by
  induction k generalizing m with
  | zero => simp [splitUpdate, messageOf, encodePayload]
  | succ k ih =>
    rw [splitUpdate]
    split_ifs
    · simp [messageOf, encodePayload]
    · rw [messageOf_cons, ih, encodePayload, List.take_append_drop]

/-- `k` splits are enough for an operand of `k + 1` longest payloads. -/
theorem splitUpdate_wf {k : Nat} {m : List Byte} (h : m.length ≤ 4095 * (k + 1)) : ∀ i ∈ splitUpdate k m, i.wf = true := by
  have hmax : Config.maxPayload = 4095 := rfl
  induction k generalizing m with
  | zero => simpa [splitUpdate] using h
  | succ k ih =>
    rw [splitUpdate, hmax]
    split_ifs with hfits
    · simpa using hfits
    · refine List.forall_mem_cons.mpr ⟨(wf_update _).mpr (List.length_take_le 4095 m), ih ?_⟩
      rw [List.length_drop]
      omega

theorem updateStar_wf (m : List Byte) : ∀ i ∈ updateStar m, i.wf = true := by
  have hmax : Config.maxPayload = 4095 := rfl
  refine splitUpdate_wf ?_
  rw [hmax]
  omega

theorem updateStar_streaming (m : List Byte) : ∀ i ∈ updateStar m, Streaming i := splitUpdate_streaming _ m

theorem messageOf_updateStar (m : List Byte) : messageOf (updateStar m) = m := messageOf_splitUpdate _ m

/-- Settles O47: the expansion's payloads are the operand cut up, and both ways append it. -/
theorem updateStarExpansion : Obligations.UpdateStarExpansion := by
  refine fun m => ⟨updateStar_wf m, messageOf_updateStar m, fun s hactive => ?same⟩
  case same =>
    obtain ⟨t, ht, hheld⟩ := s.holds_self.execAll_streaming hactive (updateStar_streaming m)
    rw [messageOf_updateStar] at hheld
    exact ⟨t, _, ht, exec_update m hactive, hheld.sameInstance ((s.holds_self.absorb m).consume _)⟩

/-- Settles O48: an `INIT`, the expansion of the operand and a `FINAL` are a sequence of O43. -/
theorem digestPseudoCommand : Obligations.DigestPseudoCommand := by
  intro s m hlive
  obtain ⟨hfinal, -⟩ := (commandSequenceDeliversTheDigest (updateStar m) (updateStar_streaming m)).1 s hlive
  obtain ⟨t, ht, hdout, hdvalid, hdone, -⟩ := hfinal
  exact ⟨t, ht, by rw [hdout, messageOf_updateStar], hdvalid, hdone⟩

/-- Settles O42: `INIT` gives the empty message; the other commands by what they do to the message held. -/
theorem instanceHoldsItsMessage : Obligations.InstanceHoldsItsMessage := by
  refine ⟨fun s hlive => ?init, fun s m h => ⟨fun payload => ?update, ?peek, ?final⟩⟩
  case init =>
    obtain ⟨t, ht, hempty, -⟩ := exec_init_absorbed hlive
    exact ⟨t, ht, hempty⟩
  case update => exact ⟨_, exec_update payload h.active, (h.absorb payload).consume _⟩
  case peek => exact ⟨_, exec_peek h.active, h.exhibit.consume 2, h.finish_state_eq_md2, rfl⟩
  case final =>
    obtain ⟨t, ht, hdout, hdvalid, hdone, -⟩ := h.exec_final_dout
    exact ⟨t, ht, hdout, hdvalid, hdone⟩

/-! ### A presented stream runs its commands -/

theorem execAll_fault {is : List Instr} (hfault : s.phase = .fault) (h : execAll is s = .next t) : t.phase = .fault := by
  induction is generalizing s with
  | nil =>
    cases h
    exact hfault
  | cons i is ih =>
    rw [execAll_cons (exec_fault i hfault)] at h
    exact ih (s := s.discard (commandLength i)) hfault h

theorem presented_cons (i : Instr) (is : List Instr) :
    presented (i :: is) = (encode i).map .byte ++ presented is := by simp [presented]

/-- Commands whose meanings end outside `FAULT` are run one a step from their bytes, and exactly their bytes are taken. -/
theorem run_presented {is : List Instr} {events : List HostEvent} (hwf : ∀ i ∈ is, i.wf = true)
    (hin : s.input = presented is ++ events) (hall : execAll is s = .next t) (hend : t.phase ≠ .fault) :
    core.run is.length s = .next t ∧ t.input = events ∧ t.cpos = s.cpos + (is.flatMap encode).length := by
  induction is generalizing s with
  | nil =>
    cases hall
    exact ⟨rfl, hin, rfl⟩
  | cons i is ih =>
    obtain ⟨hi, hwf⟩ := List.forall_mem_cons.mp hwf
    have hlive : s.phase ≠ .fault := fun hfault => hend (execAll_fault hfault hall)
    obtain ⟨u, hu⟩ := exec_answers_next i s
    rw [execAll_cons hu] at hall
    have hulive : u.phase ≠ .fault := fun hfault => hend (execAll_fault hfault hall)
    rw [presented_cons, List.append_assoc] at hin
    rcases exec_runs_of_live hlive hu with ⟨-, hcpos, hinput⟩ | hraise
    · have hrest : u.input = presented is ++ events := by
        rw [hinput, hin, List.drop_left' (List.length_map _)]
      obtain ⟨hrun, hevents, hpos⟩ := ih hwf hrest hall
      have hstep : step s = .next u := (step_presented hi hlive hin).trans hu
      refine ⟨(run_succ hstep _).trans hrun, hevents, ?_⟩
      rw [hpos, hcpos, List.flatMap_cons, List.length_append, Nat.add_assoc]
    · exact absurd (by rw [hraise]; rfl) hulive

/-- Settles O44: the meanings of the sequence end in `DONE` with the digest (O43), and their bytes run them. -/
theorem presentedStreamDeliversTheDigest : Obligations.PresentedStreamDeliversTheDigest := by
  intro s is events hlive his hin
  obtain ⟨hfinal, -⟩ := (commandSequenceDeliversTheDigest is fun i hi => (his i hi).1).1 s hlive
  obtain ⟨t, ht, hdout, hdvalid, hdone, -⟩ := hfinal
  have hwf : ∀ i ∈ Instr.init :: is ++ [Instr.final], i.wf = true := by
    intro i hi
    obtain rfl | hi | rfl : i = .init ∨ i ∈ is ∨ i = .final := by simpa using hi
    · rfl
    · exact (his i hi).2
    · rfl
  obtain ⟨hrun, hevents, hcpos⟩ := run_presented hwf hin ht (by simp [hdone])
  have hlen : (Instr.init :: is ++ [Instr.final]).length = is.length + 2 := by simp
  exact ⟨t, hlen ▸ hrun, hdout, hdvalid, hdone, hevents, hcpos⟩

end Sys2Proof.Machine
end

section
/-!
States that no command can tell apart (R12, R108): every operation of a step takes alike states to alike states.
-/
namespace Sys2Proof.Machine

variable {s t : State}

theorem State.Alike.refl (s : State) : s.Alike s := ⟨⟨rfl, rfl, rfl, rfl, rfl, rfl⟩, fun _ => ⟨rfl, rfl, rfl, rfl⟩⟩

theorem State.SameOutputs.phase_eq (h : s.SameOutputs t) : s.phase = t.phase := by
  obtain ⟨-, -, hphase, -⟩ := h
  exact hphase

theorem State.SameOutputs.input_eq (h : s.SameOutputs t) : s.input = t.input := by
  obtain ⟨-, -, -, -, -, hinput⟩ := h
  exact hinput

theorem State.SameInstance.absorb (h : s.SameInstance t) (bytes : List Byte) :
    (s.absorb bytes).SameInstance (t.absorb bytes) :=
  (s.holds_self.absorb bytes).sameInstance ((s.holds_self.of_sameInstance h).absorb bytes)

/-- The padding overwrites the stale bytes. -/
theorem State.SameInstance.padded_eq (h : s.SameInstance t) : padded s.buffer s.count = padded t.buffer t.count := by
  obtain ⟨-, -, hcount, htail⟩ := h
  rw [← Vector.toList_inj, toList_padded, toList_padded, htail, hcount]

theorem State.SameInstance.finish_state_eq (h : s.SameInstance t) : s.finish.state = t.finish.state := by
  have hpad := h.padded_eq
  obtain ⟨hstate, hck, -⟩ := h
  rw [State.finish_state, State.finish_state, hpad, hstate, hck]

theorem State.Alike.raise (h : s.Alike t) (code : Cause) : (s.raise code).Alike (t.raise code) := by
  obtain ⟨⟨hdout, hdvalid, -, -, hcpos, hinput⟩, -⟩ := h
  exact ⟨⟨hdout, hdvalid, rfl, rfl, hcpos, hinput⟩, by simp⟩

theorem State.Alike.discard (h : s.Alike t) (n : Nat) : (s.discard n).Alike (t.discard n) := by
  obtain ⟨⟨hdout, hdvalid, hphase, hcause, hcpos, hinput⟩, hinst⟩ := h
  exact ⟨⟨hdout, hdvalid, hphase, hcause, hcpos, congrArg (List.drop n) hinput⟩, hinst⟩

theorem State.Alike.consume (h : s.Alike t) (n : Nat) : (s.consume n).Alike (t.consume n) := by
  obtain ⟨⟨hdout, hdvalid, hphase, hcause, hcpos, hinput⟩, hinst⟩ := h
  exact ⟨⟨hdout, hdvalid, hphase, hcause, congrArg (· + n) hcpos, congrArg (List.drop n) hinput⟩, hinst⟩

/-- `State.fresh` keeps of the old state only `cause` and the stream. -/
theorem fresh_alike (hcause : s.cause = t.cause) (hcpos : s.cpos = t.cpos) (hinput : s.input = t.input) :
    s.fresh.Alike t.fresh :=
  ⟨⟨rfl, rfl, rfl, hcause, hcpos, hinput⟩, fun _ => ⟨rfl, rfl, rfl, rfl⟩⟩

theorem State.Alike.fresh (h : s.Alike t) : s.fresh.Alike t.fresh := by
  obtain ⟨⟨-, -, -, hcause, hcpos, hinput⟩, -⟩ := h
  exact fresh_alike hcause hcpos hinput

section Active

variable (h : s.Alike t) (hactive : s.phase = .active)
include h hactive

theorem State.Alike.absorb (bytes : List Byte) : (s.absorb bytes).Alike (t.absorb bytes) := by
  obtain ⟨⟨hdout, hdvalid, hphase, hcause, hcpos, hinput⟩, hinst⟩ := h
  exact ⟨⟨by simpa using hdout, by simpa using hdvalid, by simpa using hphase, by simpa using hcause,
    by simpa using hcpos, by simpa using hinput⟩, fun _ => (hinst hactive).absorb bytes⟩

theorem State.Alike.deliver : s.deliver.Alike t.deliver := by
  obtain ⟨⟨-, -, -, hcause, hcpos, hinput⟩, hinst⟩ := h
  exact ⟨⟨(hinst hactive).finish_state_eq, rfl, rfl, hcause, hcpos, hinput⟩, by simp⟩

theorem State.Alike.exhibit : s.exhibit.Alike t.exhibit := by
  obtain ⟨⟨-, -, hphase, hcause, hcpos, hinput⟩, hinst⟩ := h
  exact ⟨⟨(hinst hactive).finish_state_eq, rfl, hphase, hcause, hcpos, hinput⟩, fun _ => hinst hactive⟩

end Active

/-! ### Meanings, lists of commands and steps -/

theorem alikeOutcomes_next {x y : Host.Outcome State Fault Refusal} (hx : x = .next s) (hy : y = .next t)
    (h : s.Alike t) : AlikeOutcomes x y := by
  subst hx hy
  exact h

theorem State.Alike.exec (h : s.Alike t) (i : Instr) : AlikeOutcomes (exec i s) (exec i t) := by
  have hphase := h.1.phase_eq
  cases hs : s.phase with
  | active =>
    have ht : t.phase = .active := hphase.symm.trans hs
    cases i with
    | init => exact alikeOutcomes_next (exec_init (by simp [hs])) (exec_init (by simp [ht])) (h.fresh.consume 2)
    | update p => exact alikeOutcomes_next (exec_update p hs) (exec_update p ht) ((h.absorb hs p).consume _)
    | final => exact alikeOutcomes_next (exec_final hs) (exec_final ht) ((h.deliver hs).consume 2)
    | peek => exact alikeOutcomes_next (exec_peek hs) (exec_peek ht) ((h.exhibit hs).consume 2)
  | done =>
    have ht : t.phase = .done := hphase.symm.trans hs
    by_cases hi : i = .init
    · subst hi
      exact alikeOutcomes_next (exec_init (by simp [hs])) (exec_init (by simp [ht])) (h.fresh.consume 2)
    · exact alikeOutcomes_next (exec_done hs hi) (exec_done ht hi) (h.raise _)
  | fault =>
    have ht : t.phase = .fault := hphase.symm.trans hs
    exact alikeOutcomes_next (exec_fault i hs) (exec_fault i ht) (h.discard _)

theorem State.Alike.execAll (h : s.Alike t) (is : List Instr) : AlikeOutcomes (execAll is s) (execAll is t) := by
  induction is generalizing s t with
  | nil => exact h
  | cons i is ih =>
    obtain ⟨u, hu⟩ := exec_answers_next i s
    obtain ⟨v, hv⟩ := exec_answers_next i t
    have huv := h.exec i
    rw [hu, hv] at huv
    rw [execAll_cons hu, execAll_cons hv]
    exact ih huv

theorem alikeOutcomes_refl (x : Host.Outcome State Fault Refusal) : AlikeOutcomes x x := by
  cases x with
  | next s => exact .refl s
  | fault r => rfl
  | refused r => rfl

/-- To wait or to take a reset depends on the input only. -/
theorem State.Alike.await (h : s.Alike t) : AlikeOutcomes s.await t.await := by
  rw [State.await, State.await, h.1.input_eq]
  exact alikeOutcomes_refl _

theorem State.Alike.step_fault (h : s.Alike t) (hs : s.phase = .fault) (ht : t.phase = .fault) :
    AlikeOutcomes (step s) (step t) := by
  have hinput := h.1.input_eq
  match hin : s.input with
  | [] =>
    rw [step_fault_nil hs hin, step_fault_nil ht (hinput ▸ hin)]
    rfl
  | .byte b :: rest =>
    have hin' : t.input = .byte b :: rest := hinput ▸ hin
    obtain ⟨⟨hdout, hdvalid, hphase, hcause, hcpos, -⟩, hinst⟩ := h
    exact alikeOutcomes_next (step_fault_byte hs hin) (step_fault_byte ht hin')
      ⟨⟨hdout, hdvalid, hphase, hcause, hcpos, rfl⟩, hinst⟩
  | .rst :: rest => exact alikeOutcomes_next (step_rst hin) (step_rst (hinput ▸ hin)) (.refl _)

/-- Settles O45: alike states have the same input, so that their steps are of the same kind, and each kind keeps them
alike. -/
theorem staleBytesNeverReachAnOutput : Obligations.StaleBytesNeverReachAnOutput := by
  intro s t h
  have hphase := h.1.phase_eq
  by_cases hs : s.phase = .fault
  · exact h.step_fault hs (hphase.symm.trans hs)
  · have ht : t.phase ≠ .fault := hphase ▸ hs
    have hbytes : streamBytes t.input = streamBytes s.input := congrArg streamBytes h.1.input_eq.symm
    cases hd : decode (streamBytes s.input) with
    | command i rest =>
      rw [step_command hs hd, step_command ht (hbytes ▸ hd)]
      exact h.exec i
    | illegal hdr => exact alikeOutcomes_next (step_illegal hs hd) (step_illegal ht (hbytes ▸ hd)) (h.raise _)
    | needHeader =>
      rw [step_needHeader hs hd, step_needHeader ht (hbytes ▸ hd)]
      exact h.await
    | needPayload n =>
      rw [step_needPayload hs hd, step_needPayload ht (hbytes ▸ hd)]
      exact h.await

/-- Settles O46: the two fresh instances are alike, and every list of commands keeps them so. -/
theorem initForgetsTheEarlierInstance : Obligations.InitForgetsTheEarlierInstance := by
  intro s t is hs ht hcause hcpos hinput
  rw [execAll_cons (exec_init hs), execAll_cons (exec_init ht)]
  exact ((fresh_alike hcause hcpos hinput).consume 2).execAll is

end Sys2Proof.Machine
end

section
/-!
The operands of a source line (R61): a quoted text is read to its codes, hex pairs to their bytes.
-/
namespace Sys2Proof.Machine

/-! ### Quoted texts -/

/-- A quoted text is read up to its closing quote, each character to its code (R61). -/
theorem quotedText_closed (text rest : List Char) (h : ∀ c ∈ text, 0x20 ≤ c.toNat ∧ c.toNat ≤ 0x7e ∧ c ≠ '"') :
    quotedText (text ++ '"' :: rest) = some (text.map fun c => BitVec.ofNat 8 c.toNat, rest) := by
  induction text with
  | nil => simp [quotedText]
  | cons c text ih =>
    obtain ⟨⟨hlow, hhigh, hquote⟩, htext⟩ := List.forall_mem_cons.mp h
    simp [quotedText, hquote, hlow, hhigh, ih htext]

theorem readOperand_quoted (text : List Char) (h : ∀ c ∈ text, 0x20 ≤ c.toNat ∧ c.toNat ≤ 0x7e ∧ c ≠ '"') :
    readOperand (' ' :: '"' :: (text ++ ['"'])) = some (text.map fun c => BitVec.ofNat 8 c.toNat) := by
  simp [readOperand, skipBlanks, quotedText_closed text [] h, atLineEnd]

/-! ### Hex pairs -/

/-- The two digits of a byte, the high nibble first. -/
def hexPair (b : Byte) : List Char := [hexDigit (b.extractLsb' 4 4), hexDigit (b.extractLsb' 0 4)]

/-- Every digit stands for its own value and is neither a blank nor a comment's start. -/
theorem hexDigit_spec : ∀ v : BitVec 4, hexValue (hexDigit v) = some v.toNat ∧
    hexDigit v ≠ ' ' ∧ hexDigit v ≠ '\t' ∧ hexDigit v ≠ ';' := by
  decide

theorem hexPairs_blank (cs : List Char) : hexPairs (' ' :: cs) = hexPairs cs := by
  cases cs <;> simp [hexPairs]

theorem hexPairs_blanks (n : Nat) (cs : List Char) : hexPairs (List.replicate n ' ' ++ cs) = hexPairs cs := by
  induction n with
  | zero => rfl
  | succ n ih => rw [List.replicate_succ, List.cons_append, hexPairs_blank, ih]

/-- The value of a byte's two digits. -/
theorem ofNat_nibbles (b : Byte) :
    BitVec.ofNat 8 (16 * (b.extractLsb' 4 4).toNat + (b.extractLsb' 0 4).toNat) = b := by
  have hb : b.toNat < 256 := b.isLt
  apply BitVec.eq_of_toNat_eq
  rw [toNat_highNibble, toNat_lowNibble, BitVec.toNat_ofNat]
  omega

/-- A pair with nothing or a blank behind it is read to its byte. -/
theorem hexPairs_pair (b : Byte) (cs : List Char) (h : (takeWord cs).1 = []) :
    hexPairs (hexPair b ++ cs) = (hexPairs cs).map (b :: ·) := by
  obtain ⟨hhigh, hblank, htab, hcomment⟩ := hexDigit_spec (b.extractLsb' 4 4)
  have hlow := (hexDigit_spec (b.extractLsb' 0 4)).1
  simp only [hexPair, List.cons_append, List.nil_append, hexPairs, hcomment, hblank, htab, or_self, if_false, h, if_true,
    hhigh, hlow, Option.bind_some, ofNat_nibbles]

theorem takeWord_blanks (n : Nat) : (takeWord (List.replicate n ' ')).1 = [] := by
  cases n <;> simp [takeWord, List.replicate_succ]

theorem hexPairs_intercalate (m : List Byte) (after : Nat) :
    hexPairs ([' '].intercalate (m.map hexPair) ++ List.replicate after ' ') = some m := by
  induction m with
  | nil => simpa [hexPairs] using hexPairs_blanks after []
  | cons b m ih =>
    cases m with
    | nil =>
      have hend : hexPairs (List.replicate after ' ') = some [] := by simpa [hexPairs] using hexPairs_blanks after []
      rw [List.map_singleton, List.intercalate_singleton, hexPairs_pair b _ (takeWord_blanks after), hend]
      rfl
    | cons b' m =>
      rw [List.map_cons, List.map_cons, List.intercalate_cons_cons, ← List.map_cons, List.append_assoc, List.append_assoc,
        hexPairs_pair b _ rfl, List.singleton_append, hexPairs_blank, ih]
      rfl

theorem readOperand_hex (m : List Byte) (before after : Nat) :
    readOperand (' ' :: 'x' :: (List.replicate before ' ' ++ ([' '].intercalate (m.map hexPair) ++
      List.replicate after ' '))) = some m := by
  simp [readOperand, skipBlanks, hexPairs_blanks, hexPairs_intercalate]

/-! ### The line -/

/-- An `UPDATE` line stands for the expansion of its operand (R61, R62). -/
theorem assembleLine_update (cs : List Char) {m : List Byte} (h : readOperand (' ' :: cs) = some m) :
    assembleLine (['U', 'P', 'D', 'A', 'T', 'E', ' '] ++ cs) = some (updateStar m) := by
  simp [assembleLine, atLineEnd, skipBlanks, takeWord, readCommand, h, expandLine]

/-- Settles O49: the operand is read to its bytes, in either form, and the line is an `UPDATE` of them. -/
theorem operandTextAssembles : Obligations.OperandTextAssembles := by
  refine ⟨fun text htext => ?quoted, fun m before after => ?hex⟩
  case quoted => exact assembleLine_update _ (readOperand_quoted text htext)
  case hex =>
    rw [List.append_assoc, List.append_assoc]
    exact assembleLine_update _ (readOperand_hex m before after)

end Sys2Proof.Machine
end
